-- ==== Sys2Proof/Word.lean ====
section
/-! DEFINITION. The word type of the output and the text types of the input: one instruction is one 8-bit byte
(spec 30_encoding.md R60), the input of the assembler is a text of characters (20_memory.md R53). -/

namespace Sys2Proof

/-- The addressable unit of both output spaces, and one whole instruction (R40, R60). -/
abbrev Byte := BitVec 8

/-- A run of characters: a token, a line or the source text (R9, R53). -/
abbrev Text := List Char

/-- One line of the source text, without its line feed (R85). -/
abbrev Line := Text

end Sys2Proof
end

