-- ==== Sys2Proof/Syntax.lean ====
section
/-! DEFINITION. The data model of the encoder's input (spec 10_state.md R24 to R29): the closed operand sets, the
bounded integers, and the instruction type with one constructor per row of the opcode table. A shape that does not
belong to its opcode, and a field outside its range, cannot be written (R29, R204). Also the closed error taxonomy
(60_exceptions.md R171). -/

namespace Sys2Proof

/-- The eight opcodes in the source's listing order (R24). -/
inductive Opcode where
  | adi | add | sub | jne | jg | jl | ioi | ior
deriving DecidableEq, Repr

/-- The four register operands (R25): operand codes and nothing more. -/
inductive Register where
  | ra | rb | rc | rd
deriving DecidableEq, Repr

/-- The four device operands (R26): operand codes and nothing more. -/
inductive Device where
  | cpu | kbd | scr | mth
deriving DecidableEq, Repr

/-- The four operand categories (R73). -/
inductive Category where
  | immediate | registerPair | memoryAddress | ioOperation
deriving DecidableEq, Repr

/-- The Immediate value, 0 to 31 (R27). -/
abbrev Imm5 := Fin 32

/-- The MemoryAddress address, 0 to 16: the validator's range, one more than four bits hold (R27, conflicts C1, C2). -/
abbrev Addr17 := Fin 17

/-- The IoOperation function, 0 to 7 (R27). -/
abbrev U3 := Fin 8

/-- One constructor per row of the opcode table. The flag of `add`, `sub` is `indirect`, that of the jumps is
`pointer` (R28). `hlt` is the pseudo-instruction: it stands for `ioi cpu 0` (R157). -/
inductive Instr where
  | adi (value : Imm5)
  | add (indirect : Bool) (src dest : Register)
  | sub (indirect : Bool) (src dest : Register)
  | jne (pointer : Bool) (addr : Addr17)
  | jg (pointer : Bool) (addr : Addr17)
  | jl (pointer : Bool) (addr : Addr17)
  | ioi (device : Device) (function : U3)
  | ior (device : Device) (function : U3)
  | hlt
deriving DecidableEq, Repr

/-- The file-system error an `IoError` wraps "without reinterpretation" (R179): an uninterpreted tag. -/
structure IoCause where
  tag : Nat
deriving DecidableEq, Repr

/-- The closed error taxonomy (R171), line number last (conflict C7). -/
inductive AsmError where
  /-- Fewer operand tokens than the category requires (R172). -/
  | lineTooShort (line : Nat)
  /-- More operand tokens than the category requires (R173). -/
  | lineTooLong (line : Nat)
  /-- The mnemonic token, as written, resolves to no opcode, or is `adip` (R174). -/
  | invalidInstruction (token : Text) (line : Nat)
  /-- An operand token of `add` or `sub` is no register name (R175). -/
  | invalidRegister (token : Text) (line : Nat)
  /-- The first operand token of `ioi` or `ior` is no device name (R176). -/
  | invalidDevice (token : Text) (line : Nat)
  /-- An integer operand token is not an unsigned decimal number (R177). -/
  | invalidInteger (token : Text) (line : Nat)
  /-- An integer operand is above the declared maximum of its field (R178). -/
  | integerTooLarge (value max line : Nat)
  /-- The initial read or the final write failed (R179); the one variant with no line. -/
  | ioError (cause : IoCause)
deriving DecidableEq, Repr

end Sys2Proof
end

