-- ==== Sys2Proof/Config.lean ====
section
/-! DEFINITION. The parameters of spec 00_scope.md R5 in one record, and the free values: constants with no body for
what the spec leaves open. The record the machine runs with, with the spec's default code maps, is `pactConfig` in
Decode.lean. -/

namespace Sys2Proof

/-- Bits 4:0 of the byte of a MemoryAddress instruction with address 16, by the pointer flag (R143, D8). OPEN: nothing
is known of it (log 7). -/
opaque Config.freeAddr16Low5 : Bool → BitVec 5

/-- The magic header's bytes in file order, any number of them (R42, D10). OPEN (log 8). -/
opaque Config.freeMagicBytes : List Byte

/-- Whether a character beyond ASCII is blank (R87, D17). OPEN (log 10). -/
opaque Config.freeIsBlank : Char → Bool

/-- Whether a carriage return before a line feed is removed with it (R85, D16). OPEN (log 11). -/
opaque Config.freeStripsCr : Bool

/-- The text of `<message>` for an error (U9). A free value, drawn by the counter `draws` of the state (log 14). -/
opaque Config.freeErrorMessage : Nat → AsmError → String

/-- The diagnostic line of a failed initial read, whose form the spec does not give (R183). A free value (log 14). -/
opaque Config.freeReadDiagnostic : Nat → IoCause → String

/-- The usage message (R188, U9). A free value (log 14). -/
opaque Config.freeUsageText : Nat → String

/-- The exit status after a wrong argument count (R188, U5). A free value (log 14). -/
opaque Config.freeUsageExit : Nat → Nat

/-- The configuration record (R5): constants fixed when the block is built, not state (R34). -/
structure Config where
  /-- `OPCODE_CODE` -/
  opcodeCode : Opcode → BitVec 3
  /-- `REGISTER_CODE` -/
  registerCode : Register → BitVec 2
  /-- `DEVICE_CODE` -/
  deviceCode : Device → BitVec 2
  /-- `FLAG_ONE_IS_TRUE` -/
  flagOneIsTrue : Bool
  /-- `ADDR16_LOW5` -/
  addr16Low5 : Bool → BitVec 5
  /-- `MAGIC_BYTES` -/
  magicBytes : List Byte
  /-- `PARSE_LIMIT`: the largest value the integer parser can represent; `none` is unbounded -/
  parseLimit : Option Nat
  /-- `IS_BLANK_CHAR`, for characters beyond ASCII only -/
  isBlankBeyondAscii : Char → Bool
  /-- whether a carriage return before a line feed is removed -/
  stripsCr : Bool
  /-- the text of `<message>` -/
  errorMessage : Nat → AsmError → String
  /-- the diagnostic line of a failed initial read -/
  readDiagnostic : Nat → IoCause → String
  /-- the usage message -/
  usageText : Nat → String
  /-- the exit status after a wrong argument count -/
  usageExit : Nat → Nat

/-- The one law the code maps obey whatever value they take: the codes are "unique" (R5, R62, R67, R68). -/
structure Config.UniqueCodes (c : Config) : Prop where
  opcode : ∀ a b, c.opcodeCode a = c.opcodeCode b → a = b
  register : ∀ a b, c.registerCode a = c.registerCode b → a = b
  device : ∀ a b, c.deviceCode a = c.deviceCode b → a = b

/-- The integer parser holds every value the ranges and their first refused values need (D19: "the values 0..31 and the
first refused values 32, 17, 8 are unaffected"). -/
def Config.ParsesSmall (c : Config) : Prop := ∀ m, c.parseLimit = some m → 32 ≤ m

end Sys2Proof
end

