-- ==== Sys2Proof/WellFormed.lean ====
section
/-! DEFINITION. Well-formedness of an (opcode, data) pair (spec 10_state.md R28, R29): the data has the shape of its
opcode's category and every number lies in the validator's range. `Instr` admits well-formed pairs only; the checks
are stated over raw pairs, which can be ill formed, so that a refusal can be shown. -/

namespace Sys2Proof

/-- The category of each opcode (R73). -/
def Opcode.category : Opcode → Category
  | .adi => .immediate
  | .add => .registerPair
  | .sub => .registerPair
  | .jne => .memoryAddress
  | .jg => .memoryAddress
  | .jl => .memoryAddress
  | .ioi => .ioOperation
  | .ior => .ioOperation

/-- The four operand shapes (R28), their integers not yet checked. -/
inductive RawData where
  | immediate (value : Nat)
  | registerPair (indirect : Bool) (src dest : Register)
  | memoryAddress (pointer : Bool) (addr : Nat)
  | ioOperation (device : Device) (function : Nat)
deriving DecidableEq, Repr

/-- An (opcode, data) pair that may be ill formed (R29). -/
structure RawInstr where
  opcode : Opcode
  data : RawData
deriving DecidableEq, Repr

/-- The category whose shape the data has (R28). -/
def RawData.category : RawData → Category
  | .immediate _ => .immediate
  | .registerPair _ _ _ => .registerPair
  | .memoryAddress _ _ => .memoryAddress
  | .ioOperation _ _ => .ioOperation

/-- Every integer field is inside the validator's range: 31, 16 or 7 (R27, R97). -/
def RawData.inRange : RawData → Bool
  | .immediate value => decide (value ≤ 31)
  | .registerPair _ _ _ => true
  | .memoryAddress _ addr => decide (addr ≤ 16)
  | .ioOperation _ function => decide (function ≤ 7)

/-- A well-formed pair: the shape its opcode's category requires, the fields in range (R12, R29). -/
def RawInstr.wellFormed (r : RawInstr) : Bool :=
  decide (r.data.category = r.opcode.category) && r.data.inRange

/-- What the pseudo-instruction stands for: `hlt` is `ioi cpu 0`, every other instruction is itself (R105, R157). -/
def Instr.expand : Instr → Instr
  | .hlt => .ioi .cpu 0
  | .adi value => .adi value
  | .add indirect src dest => .add indirect src dest
  | .sub indirect src dest => .sub indirect src dest
  | .jne pointer addr => .jne pointer addr
  | .jg pointer addr => .jg pointer addr
  | .jl pointer addr => .jl pointer addr
  | .ioi device function => .ioi device function
  | .ior device function => .ior device function

/-- The opcode of an instruction; that of `hlt` is the opcode of its expansion (R24, R157). -/
def Instr.opcode : Instr → Opcode
  | .adi _ => .adi
  | .add _ _ _ => .add
  | .sub _ _ _ => .sub
  | .jne _ _ => .jne
  | .jg _ _ => .jg
  | .jl _ _ => .jl
  | .ioi _ _ => .ioi
  | .ior _ _ => .ior
  | .hlt => .ioi

/-- The data of an instruction in its shape (R28, R101). -/
def Instr.data : Instr → RawData
  | .adi value => .immediate value.val
  | .add indirect src dest => .registerPair indirect src dest
  | .sub indirect src dest => .registerPair indirect src dest
  | .jne pointer addr => .memoryAddress pointer addr.val
  | .jg pointer addr => .memoryAddress pointer addr.val
  | .jl pointer addr => .memoryAddress pointer addr.val
  | .ioi device function => .ioOperation device function.val
  | .ior device function => .ioOperation device function.val
  | .hlt => .ioOperation .cpu 0

/-- The (opcode, data) pair an instruction is (R29). -/
def Instr.raw (i : Instr) : RawInstr := ⟨i.opcode, i.data⟩

/-- An instruction is well formed when its pair is. It always is: the type holds nothing else (R29, R204). -/
def Instr.wellFormed (i : Instr) : Bool := i.raw.wellFormed

/-- The instruction a pair is, where the pair is well formed (R101); `none` where it is not. -/
def RawInstr.instr? : RawInstr → Option Instr
  | ⟨.adi, .immediate v⟩ => if h : v < 32 then some (.adi ⟨v, h⟩) else none
  | ⟨.add, .registerPair f s d⟩ => some (.add f s d)
  | ⟨.sub, .registerPair f s d⟩ => some (.sub f s d)
  | ⟨.jne, .memoryAddress f a⟩ => if h : a < 17 then some (.jne f ⟨a, h⟩) else none
  | ⟨.jg, .memoryAddress f a⟩ => if h : a < 17 then some (.jg f ⟨a, h⟩) else none
  | ⟨.jl, .memoryAddress f a⟩ => if h : a < 17 then some (.jl f ⟨a, h⟩) else none
  | ⟨.ioi, .ioOperation v f⟩ => if h : f < 8 then some (.ioi v ⟨f, h⟩) else none
  | ⟨.ior, .ioOperation v f⟩ => if h : f < 8 then some (.ior v ⟨f, h⟩) else none
  | _ => none

/-- The address of an instruction fits its four-bit field: every instruction but the six with address 16
(R76, R77). -/
def Instr.exact : Instr → Bool
  | .jne _ addr => decide (addr.val ≤ 15)
  | .jg _ addr => decide (addr.val ≤ 15)
  | .jl _ addr => decide (addr.val ≤ 15)
  | .adi _ => true
  | .add _ _ _ => true
  | .sub _ _ _ => true
  | .ioi _ _ => true
  | .ior _ _ => true
  | .hlt => true

end Sys2Proof
end

