-- ==== Sys2Proof/Decode.lean ====
section
/-! DEFINITION. The machine's configuration with the spec's default code maps, the derived inverse of the encoding
(spec 30_encoding.md R80, an aid to proofs: the system itself never decodes), and after it the encode function (R71). -/

namespace Sys2Proof

/-! ### The machine's configuration -/

/-- Opcode codes in listing order. DESIGN CHOICE of the spec (D3), unsafe: log 5. -/
def listingOpcodeCode : Opcode → BitVec 3
  | .adi => 0
  | .add => 1
  | .sub => 2
  | .jne => 3
  | .jg => 4
  | .jl => 5
  | .ioi => 6
  | .ior => 7

/-- Register codes in listing order. DESIGN CHOICE of the spec (D4), unsafe: log 5. -/
def listingRegisterCode : Register → BitVec 2
  | .ra => 0
  | .rb => 1
  | .rc => 2
  | .rd => 3

/-- Device codes in listing order. DESIGN CHOICE of the spec (D5), unsafe: log 5. -/
def listingDeviceCode : Device → BitVec 2
  | .cpu => 0
  | .kbd => 1
  | .scr => 2
  | .mth => 3

/-- The configuration the machine runs with: the defaults of R5, the open parameters left free. -/
def pactConfig : Config where
  opcodeCode := listingOpcodeCode
  registerCode := listingRegisterCode
  deviceCode := listingDeviceCode
  flagOneIsTrue := true
  addr16Low5 := Config.freeAddr16Low5
  magicBytes := Config.freeMagicBytes
  parseLimit := none
  isBlankBeyondAscii := Config.freeIsBlank
  stripsCr := Config.freeStripsCr
  errorMessage := Config.freeErrorMessage
  readDiagnostic := Config.freeReadDiagnostic
  usageText := Config.freeUsageText
  usageExit := Config.freeUsageExit

/-! ### Bytes to instructions (R80) -/

/-- The eight opcodes, in listing order (R24). -/
def allOpcodes : List Opcode := [.adi, .add, .sub, .jne, .jg, .jl, .ioi, .ior]

/-- The four registers, in listing order (R25). -/
def allRegisters : List Register := [.ra, .rb, .rc, .rd]

/-- The four devices, in listing order (R26). -/
def allDevices : List Device := [.cpu, .kbd, .scr, .mth]

/-- The opcode with a given code, the inverse of `OPCODE_CODE` (R80). -/
def opcodeOfCode (c : Config) (b : BitVec 3) : Option Opcode :=
  allOpcodes.find? fun o => c.opcodeCode o == b

/-- The register with a given code (R80). -/
def registerOfCode (c : Config) (b : BitVec 2) : Option Register :=
  allRegisters.find? fun r => c.registerCode r == b

/-- The device with a given code (R80). -/
def deviceOfCode (c : Config) (b : BitVec 2) : Option Device :=
  allDevices.find? fun d => c.deviceCode d == b

/-- The flag a bit stands for (R80: `b[4] = 1`, under the polarity of D6). -/
def flagOfBit (c : Config) (b : BitVec 1) : Bool := (b == 1#1) == c.flagOneIsTrue

/-- The register pair in bits 3:0 of a byte, handed to `mk` (R80). -/
def decodeRegisters (c : Config) (b : Byte) (mk : Register → Register → Instr) : Option Instr :=
  match registerOfCode c (b.extractLsb' 2 2), registerOfCode c (b.extractLsb' 0 2) with
  | some s, some d => some (mk s d)
  | _, _ => none

/-- The device and function in bits 4:0 of a byte, handed to `mk` (R80). -/
def decodeIo (c : Config) (b : Byte) (mk : Device → U3 → Instr) : Option Instr :=
  match deviceOfCode c (b.extractLsb' 3 2) with
  | some d => some (mk d (b.extractLsb' 0 3).toFin)
  | none => none

/-- The four-bit address field, as an address (R80: `b[3:0]`). -/
def addrField (b : Byte) : Addr17 := ⟨(b.extractLsb' 0 4).toNat, by omega⟩

/-- The instruction with address at most 15 that a byte encodes (R80), under any code maps. -/
def decodeByte (c : Config) (b : Byte) : Option Instr :=
  match opcodeOfCode c (b.extractLsb' 5 3) with
  | none => none
  | some .adi => some (.adi (b.extractLsb' 0 5).toFin)
  | some .add => decodeRegisters c b (.add (flagOfBit c (b.extractLsb' 4 1)))
  | some .sub => decodeRegisters c b (.sub (flagOfBit c (b.extractLsb' 4 1)))
  | some .jne => some (.jne (flagOfBit c (b.extractLsb' 4 1)) (addrField b))
  | some .jg => some (.jg (flagOfBit c (b.extractLsb' 4 1)) (addrField b))
  | some .jl => some (.jl (flagOfBit c (b.extractLsb' 4 1)) (addrField b))
  | some .ioi => decodeIo c b .ioi
  | some .ior => decodeIo c b .ior

/-- Why bytes are not an instruction. -/
inductive DecodeRefusal where
  /-- There is no byte to read. Safe: an instruction is exactly one byte (R60). -/
  | endOfBytes
  /-- A field holds a code that no symbol has. Under unique codes it never happens (R76). Safe. -/
  | codeUnassigned
deriving DecidableEq, Repr

/-- The first instruction of a byte sequence and the bytes after it: one byte per instruction (R60, R80). -/
def decode : List Byte → Except DecodeRefusal (Instr × List Byte)
  | [] => .error .endOfBytes
  | b :: rest =>
    match decodeByte pactConfig b with
    | some i => .ok (i, rest)
    | none => .error .codeUnassigned

/-- The instruction the decoder reads from an instruction whose bits are `w`. The one byte is bits 7:0; bits above
`nbits` are zero. -/
def decodeTableWord (nbits w : Nat) : Option Instr :=
  match decode [BitVec.ofNat 8 (w % 2 ^ nbits)] with
  | .ok (i, _) => some i
  | .error _ => none

/-! ### Instructions to bytes (R61 to R71) -/

/-- The bit a flag is stored as (R7, R69; polarity D6, log 6). -/
def boolBit (c : Config) (f : Bool) : BitVec 1 := BitVec.ofBool (f == c.flagOneIsTrue)

/-- `[value:5]` (R63). -/
def payloadImmediate (value : Imm5) : BitVec 5 := BitVec.ofNat 5 value.val

/-- `[indirect:1][src:2][dest:2]` (R64; high to low, D7, log 6). -/
def payloadRegisterPair (c : Config) (indirect : Bool) (src dest : Register) : BitVec 5 :=
  boolBit c indirect ++ c.registerCode src ++ c.registerCode dest

/-- `[pointer:1][addr:4]` for addresses that fit, the open parameter for address 16 (R65, R143). -/
def payloadMemoryAddress (c : Config) (pointer : Bool) (addr : Addr17) : BitVec 5 :=
  if addr.val ≤ 15 then boolBit c pointer ++ BitVec.ofNat 4 addr.val else c.addr16Low5 pointer

/-- `[device:2][function:3]` (R66). -/
def payloadIo (c : Config) (device : Device) (function : U3) : BitVec 5 :=
  c.deviceCode device ++ BitVec.ofNat 3 function.val

/-- Opcode code in bits 7:5, payload in bits 4:0 (R61, R71: `op3 ++ pay5`). -/
def instructionByte (c : Config) (o : Opcode) (payload : BitVec 5) : Byte := c.opcodeCode o ++ payload

/-- The payload of an instruction (R71). -/
def payloadOf (c : Config) : Instr → BitVec 5
  | .adi value => payloadImmediate value
  | .add indirect src dest => payloadRegisterPair c indirect src dest
  | .sub indirect src dest => payloadRegisterPair c indirect src dest
  | .jne pointer addr => payloadMemoryAddress c pointer addr
  | .jg pointer addr => payloadMemoryAddress c pointer addr
  | .jl pointer addr => payloadMemoryAddress c pointer addr
  | .ioi device function => payloadIo c device function
  | .ior device function => payloadIo c device function
  | .hlt => payloadIo c .cpu 0

/-- The whole behaviour of the block under any configuration (R71). -/
def encodeWith (c : Config) (i : Instr) : Byte := instructionByte c i.opcode (payloadOf c i)

/-- The words of a well-formed instruction under the machine's configuration: exactly one byte (R60, R71). -/
def encode (i : Instr) : List Byte := [encodeWith pactConfig i]

end Sys2Proof
end

