-- ==== Sys2Proof/Machine/State.lean ====
section
/-! DEFINITION. The state of a run of the assembler around the encoder: the encoder itself has none (spec 10_state.md
R20). Everything the spec gives the run (R30, R31, R35), the output spaces (20_memory.md R40, R41), what the command
line shows (60_exceptions.md R183, R187, R188) and the inputs the host supplies. -/

namespace Sys2Proof.Machine

/-- An address space of bytes as cells, addresses strictly rising. An unlisted address reads as no value: the spec says
that no byte is there (R40, R43; log 19). -/
abbrev Memory := List Host.Cell

/-- Where the run stands (R49, R50, R188, R206). -/
inductive Phase where
  /-- The process has been invoked and has read nothing. -/
  | start
  /-- The source is in memory; lines are taken in order. -/
  | assembling
  /-- The image is written and the process has exited with status 0 (R187). -/
  | succeeded
  /-- An error ended the run (R183). -/
  | failed
  /-- The argument count was wrong and the usage message was printed (R188). -/
  | usageShown
deriving DecidableEq, Repr

/-- What the initial read of the input path meets (R179, R186). -/
inductive FileRead where
  | text (t : Text)
  | failed (cause : IoCause)
deriving DecidableEq, Repr

/-- No constructor: no behaviour of this hardware is a fault or stuck (R170; 93_implementation_defined.md part 1). -/
inductive Fault where
deriving DecidableEq, Repr

/-- The one refusal the host's interface asks for. -/
inductive Refusal where
  /-- Raised by `exec` for an instruction that has no meaning yet; no arm raises it. Safe: the model stops. -/
  | notModelled (mnemonic : String)
deriving DecidableEq, Repr

/-- The state of one run. -/
structure State where
  /-- where the run stands -/
  phase : Phase
  /-- host input: the command-line arguments after the program name (R186) -/
  args : List String
  /-- host input: what reading the input path gives (R186) -/
  inputFile : FileRead
  /-- host input: the error the final write meets, if it fails (R179) -/
  writeFailure : Option IoCause
  /-- the whole source text as lines (R31, R53, R85) -/
  source : List Line
  /-- the 1-based line counter (R31, R32) -/
  lineNo : Nat
  /-- the Program: the instruction of each slot, in source order (R30) -/
  program : List Instr
  /-- the slot index: the next slot to fill (R30, R32) -/
  slot : Nat
  /-- the program body `OUT` (R40) -/
  out : Memory
  /-- the output file image `F`, absent until it is written (R41, R50) -/
  image : Option Memory
  /-- the recorded error (R171, R201) -/
  error : Option AsmError
  /-- lines printed to standard output (R187) -/
  stdout : List String
  /-- lines printed to standard error (R183, R188) -/
  stderr : List String
  /-- the process exit status, absent until the process ends (R183, R187, R188) -/
  exitStatus : Option Nat
  /-- the MODEL's own: how many free values have been drawn (log 14) -/
  draws : Nat
deriving DecidableEq, Repr

/-- The start of a run with nothing supplied: line counter 1, empty program, no byte produced, no error (R35, R201).
Arguments, input text, phase, streams and exit status are the model's choice (logs 1, 15, 16). -/
def State.reset : State where
  phase := .start
  args := []
  inputFile := .text []
  writeFailure := none
  source := []
  lineNo := 1
  program := []
  slot := 0
  out := []
  image := none
  error := none
  stdout := []
  stderr := []
  exitStatus := none
  draws := 0

/-- The start of a run the host invokes with these inputs (R186): every run starts from nothing (R201). -/
def State.invoke (args : List String) (inputFile : FileRead) (writeFailure : Option IoCause) : State :=
  { State.reset with args := args, inputFile := inputFile, writeFailure := writeFailure }

end Sys2Proof.Machine
end

