-- ==== Sys2Proof/Machine/Ops.lean ====
section
/-! DEFINITION. The named operations: reading and writing the output spaces, emitting an instruction byte, the byte
formulas of the instruction rules, the line counter, and the one way a run ends in an error. -/

namespace Sys2Proof.Machine

/-! ### The output spaces (spec 20_memory.md) -/

/-- The byte at an address, `none` where there is none. -/
def Memory.read : Memory → Nat → Option Byte
  | [], _ => none
  | (b, w) :: m, a => if a = b then some w else Memory.read m a

/-- `MemWrite(a, 1, v)`: the only access (R8, R46), keeping the addresses in rising order. -/
def Memory.write : Memory → Nat → Byte → Memory
  | [], a, v => [(a, v)]
  | (b, w) :: m, a, v =>
    if a < b then (a, v) :: (b, w) :: m
    else if a = b then (a, v) :: m
    else (b, w) :: Memory.write m a v

/-- Consecutive writes from address `a` on. -/
def Memory.writeBytes (m : Memory) (a : Nat) : List Byte → Memory
  | [] => m
  | v :: vs => Memory.writeBytes (Memory.write m a v) (a + 1) vs

/-- All listed addresses are at least `lo` and rise strictly. -/
def Memory.risesFrom (lo : Nat) : Memory → Bool
  | [] => true
  | (a, _) :: m => decide (lo ≤ a) && Memory.risesFrom (a + 1) m

/-- The canonical form: addresses strictly rising. An unlisted address reads as no value, so no entry can repeat it. -/
def Memory.wf (m : Memory) : Bool := Memory.risesFrom 0 m

/-- The dense space that holds the given bytes from address `a` on. -/
def Memory.ofBytes (a : Nat) : List Byte → Memory
  | [] => []
  | v :: vs => (a, v) :: Memory.ofBytes (a + 1) vs

/-! ### The byte formulas of the instruction rules (40_immediate.md to 43_io_operation.md) -/

/-- `OPCODE_CODE(o) << 5`. -/
def opcodeBits (c : Config) (o : Opcode) : Byte := (c.opcodeCode o).setWidth 8 <<< 5

/-- `(OPCODE_CODE(o) << 5) | value` (R120). -/
def immediateByte (c : Config) (o : Opcode) (value : Imm5) : Byte :=
  opcodeBits c o ||| BitVec.ofNat 8 value.val

/-- `(OPCODE_CODE(o) << 5) | (bool_bit(indirect) << 4) | (REGISTER_CODE(src) << 2) | REGISTER_CODE(dest)` (R130, R131). -/
def registerPairByte (c : Config) (o : Opcode) (indirect : Bool) (src dest : Register) : Byte :=
  opcodeBits c o ||| ((boolBit c indirect).setWidth 8 <<< 4) ||| ((c.registerCode src).setWidth 8 <<< 2)
    ||| (c.registerCode dest).setWidth 8

/-- `(OPCODE_CODE(o) << 5) | (bool_bit(pointer) << 4) | addr` where the address fits, else
`(OPCODE_CODE(o) << 5) | ADDR16_LOW5(pointer)` (R140 to R143). -/
def memoryAddressByte (c : Config) (o : Opcode) (pointer : Bool) (addr : Addr17) : Byte :=
  if addr.val ≤ 15 then
    opcodeBits c o ||| ((boolBit c pointer).setWidth 8 <<< 4) ||| BitVec.ofNat 8 addr.val
  else opcodeBits c o ||| (c.addr16Low5 pointer).setWidth 8

/-- `(OPCODE_CODE(o) << 5) | (DEVICE_CODE(device) << 3) | function` (R155, R156). -/
def ioByte (c : Config) (o : Opcode) (device : Device) (function : U3) : Byte :=
  opcodeBits c o ||| ((c.deviceCode device).setWidth 8 <<< 3) ||| BitVec.ofNat 8 function.val

/-! ### Emission, the line counter, and the end of what a run keeps -/

/-- The encoder's byte `q` for the instruction in the next slot goes to `OUT[slot]`, and the instruction takes that slot
of the program (R30, R40, R49). Nothing else of the state changes. -/
def emit (q : Byte) (i : Instr) (s : State) : State :=
  { s with out := Memory.write s.out s.slot q, program := s.program ++ [i], slot := s.slot + 1 }

/-- The line counter moves to the next line, blank or not (R31). -/
def advanceLine (s : State) : State := { s with lineNo := s.lineNo + 1 }

/-- What the run kept is dropped: source text, line counter, program, slot index, bytes (R31). Each field is left at the
value it has before anything is built (R35; log 17). -/
def dropTransient (s : State) : State := { s with source := [], lineNo := 1, program := [], slot := 0, out := [] }

/-! ### Taking an error (60_exceptions.md R183); there is no return from one (R184) -/

/-- An error ends the run: what was built is dropped, no image exists, the error is recorded, one diagnostic line goes
to standard error, the exit status is 1. The diagnostic draws one free value. -/
def abort (e : AsmError) (diagnostic : String) (s : State) : State :=
  { dropTransient s with
    phase := .failed
    image := none
    error := some e
    stderr := s.stderr ++ [diagnostic]
    exitStatus := some 1
    draws := s.draws + 1 }

/-- A line error: `failed to parse file: <message>` (R183). -/
def abortLine (c : Config) (e : AsmError) (s : State) : State :=
  abort e ("failed to parse file: " ++ c.errorMessage s.draws e) s

/-- The initial read failed. The spec gives exit status 1 and one diagnostic line, not the line's form (R179, R180,
R183): the line is a free value (log 14). -/
def abortRead (c : Config) (cause : IoCause) (s : State) : State :=
  abort (.ioError cause) (c.readDiagnostic s.draws cause) s

/-- The output path: the second of the two arguments (R186). -/
def outputPath (s : State) : String := s.args.getD 1 ""

/-- The final write failed: `failed to write to file '<output-path>': <message>` (R179, R183). -/
def abortWrite (c : Config) (cause : IoCause) (s : State) : State :=
  abort (.ioError cause)
    ("failed to write to file '" ++ outputPath s ++ "': " ++ c.errorMessage s.draws (.ioError cause)) s

end Sys2Proof.Machine
end

