-- ==== Sys2Proof/Machine/Immediate.lean ====
section
/-! DEFINITION. Immediate category: the meaning of `adi` (spec 40_immediate.md). -/

namespace Sys2Proof.Machine

/-- `q <- (OPCODE_CODE(Adi) << 5) | value` (R120). No flag is written, nothing is raised. -/
def execAdi (value : Imm5) (s : State) : Host.Outcome State Fault Refusal :=
  .next (emit (immediateByte pactConfig .adi value) (.adi value) s)

end Sys2Proof.Machine
end

