-- ==== Sys2Proof/Machine/IoOperation.lean ====
section
/-! DEFINITION. IoOperation category and the pseudo-instruction: the meanings of `ioi`, `ior`, `hlt` (spec
43_io_operation.md). A device is a two-bit operand code: no device acts (10_state.md R26). -/

namespace Sys2Proof.Machine

/-- `q <- (OPCODE_CODE(Ioi) << 5) | (DEVICE_CODE(device) << 3) | function` (R155). -/
def execIoi (device : Device) (function : U3) (s : State) : Host.Outcome State Fault Refusal :=
  .next (emit (ioByte pactConfig .ioi device function) (.ioi device function) s)

/-- The same with `OPCODE_CODE(Ior)` (R156). -/
def execIor (device : Device) (function : U3) (s : State) : Host.Outcome State Fault Refusal :=
  .next (emit (ioByte pactConfig .ior device function) (.ior device function) s)

/-- `q <- encode((Ioi, IoOperation(Cpu, 0)))`: the program slot holds the expansion, which the encoder cannot tell from
`ioi cpu 0` (R92, R157). Nothing halts: the run goes on with the next line. -/
def execHlt (s : State) : Host.Outcome State Fault Refusal :=
  .next (emit (ioByte pactConfig .ioi .cpu 0) (.ioi .cpu 0) s)

end Sys2Proof.Machine
end

