-- ==== Sys2Proof/Machine/MemoryAddress.lean ====
section
/-! DEFINITION. MemoryAddress category: the meanings of `jne`, `jg`, `jl` and their `p` forms (spec 42_memory_address.md).
The address is copied into the byte; for address 16 the low five bits are the open parameter (R143). -/

namespace Sys2Proof.Machine

/-- `q <- (OPCODE_CODE(Jne) << 5) | (bool_bit(pointer) << 4) | addr`, or `| ADDR16_LOW5(pointer)` for 16 (R140, R143). -/
def execJne (pointer : Bool) (addr : Addr17) (s : State) : Host.Outcome State Fault Refusal :=
  .next (emit (memoryAddressByte pactConfig .jne pointer addr) (.jne pointer addr) s)

/-- The same with `OPCODE_CODE(Jg)` (R141, R143). -/
def execJg (pointer : Bool) (addr : Addr17) (s : State) : Host.Outcome State Fault Refusal :=
  .next (emit (memoryAddressByte pactConfig .jg pointer addr) (.jg pointer addr) s)

/-- The same with `OPCODE_CODE(Jl)` (R142, R143). -/
def execJl (pointer : Bool) (addr : Addr17) (s : State) : Host.Outcome State Fault Refusal :=
  .next (emit (memoryAddressByte pactConfig .jl pointer addr) (.jl pointer addr) s)

end Sys2Proof.Machine
end

