-- ==== Sys2Proof/Machine/RegisterPair.lean ====
section
/-! DEFINITION. RegisterPair category: the meanings of `add`, `addp`, `sub`, `subp` (spec 41_register_pair.md). A register
is a two-bit operand code: no register is read or written (10_state.md R25). -/

namespace Sys2Proof.Machine

/-- `q <- (OPCODE_CODE(Add) << 5) | (bool_bit(indirect) << 4) | (REGISTER_CODE(src) << 2) | REGISTER_CODE(dest)` (R130). -/
def execAdd (indirect : Bool) (src dest : Register) (s : State) : Host.Outcome State Fault Refusal :=
  .next (emit (registerPairByte pactConfig .add indirect src dest) (.add indirect src dest) s)

/-- The same with `OPCODE_CODE(Sub)` (R131). -/
def execSub (indirect : Bool) (src dest : Register) (s : State) : Host.Outcome State Fault Refusal :=
  .next (emit (registerPairByte pactConfig .sub indirect src dest) (.sub indirect src dest) s)

end Sys2Proof.Machine
end

