-- ==== Sys2Proof/Machine/Dispatch.lean ====
section
/-! DEFINITION. One arm per constructor of Instr, each a direct call of its meaning. -/

namespace Sys2Proof.Machine

def exec (i : Instr) (s : State) : Host.Outcome State Fault Refusal :=
  match i with
  | .adi value => Sys2Proof.Machine.execAdi value s
  | .add indirect src dest => Sys2Proof.Machine.execAdd indirect src dest s
  | .sub indirect src dest => Sys2Proof.Machine.execSub indirect src dest s
  | .jne pointer addr => Sys2Proof.Machine.execJne pointer addr s
  | .jg pointer addr => Sys2Proof.Machine.execJg pointer addr s
  | .jl pointer addr => Sys2Proof.Machine.execJl pointer addr s
  | .ioi device function => Sys2Proof.Machine.execIoi device function s
  | .ior device function => Sys2Proof.Machine.execIor device function s
  | .hlt => Sys2Proof.Machine.execHlt s

end Sys2Proof.Machine
end

