-- ==== Sys2Proof/Machine/Flags.lean ====
section
/-! DEFINITION. The one flag of the language: the indirect/pointer flag, computed from the spelling of the mnemonic
(spec 30_encoding.md R89). The block has no status flags: no instruction reads or writes one (10_state.md R33). -/

namespace Sys2Proof.Machine

/-- `lower(t)` for one character: ASCII letters only (R9, R88). -/
def lowerChar (ch : Char) : Char :=
  if 65 ≤ ch.toNat ∧ ch.toNat ≤ 90 then Char.ofNat (ch.toNat + 32) else ch

/-- `lower(t)` (R9). -/
def lower (t : Text) : Text := t.map lowerChar

/-- Strip exactly one trailing `p` and record whether there was one (R89). The argument is already in lower case
(D13). -/
def stripSuffix (t : Text) : Text × Bool :=
  if t.getLast? = some 'p' then (t.dropLast, true) else (t, false)

end Sys2Proof.Machine
end

