-- ==== Sys2Proof/Machine/Operands.lean ====
section
/-! DEFINITION. The operand forms of the language: register and device symbols, unsigned decimal integers with the range
of their field, and the arity of a category (spec 30_encoding.md R94 to R99). -/

namespace Sys2Proof.Machine

/-- The register a token names, letter case ignored (R98). -/
def registerOfToken (t : Text) : Option Register :=
  let l := lower t
  if l = ['r', 'a'] then some .ra
  else if l = ['r', 'b'] then some .rb
  else if l = ['r', 'c'] then some .rc
  else if l = ['r', 'd'] then some .rd
  else none

/-- The device a token names, letter case ignored (R99). -/
def deviceOfToken (t : Text) : Option Device :=
  let l := lower t
  if l = ['c', 'p', 'u'] then some .cpu
  else if l = ['k', 'b', 'd'] then some .kbd
  else if l = ['s', 'c', 'r'] then some .scr
  else if l = ['m', 't', 'h'] then some .mth
  else none

/-- The value of an ASCII digit (R96). -/
def digitValue (ch : Char) : Option Nat :=
  if 48 ≤ ch.toNat ∧ ch.toNat ≤ 57 then some (ch.toNat - 48) else none

/-- Base-ten value of digits read after the value `acc`; `none` at the first character that is no digit. -/
def decimalFrom (acc : Nat) : Text → Option Nat
  | [] => some acc
  | ch :: rest =>
    match digitValue ch with
    | some d => decimalFrom (10 * acc + d) rest
    | none => none

/-- The value of an unsigned decimal token: one or more digits and nothing else (R96, D18), up to the parser's limit
where it has one (D19). -/
def unsignedOfToken (c : Config) (t : Text) : Option Nat :=
  match t with
  | [] => none
  | _ :: _ =>
    match decimalFrom 0 t, c.parseLimit with
    | some v, some limit => if v ≤ limit then some v else none
    | some v, none => some v
    | none, _ => none

/-- An integer operand with maximum `max` on line `n`: syntax first, then range (R96, R97, R102). -/
def integerOperand (c : Config) (max n : Nat) (t : Text) : Except AsmError (Fin (max + 1)) :=
  match unsignedOfToken c t with
  | none => .error (.invalidInteger t n)
  | some v => if h : v < max + 1 then .ok ⟨v, h⟩ else .error (.integerTooLarge v max n)

/-- A register operand on line `n` (R98). -/
def registerOperand (n : Nat) (t : Text) : Except AsmError Register :=
  match registerOfToken t with
  | some r => .ok r
  | none => .error (.invalidRegister t n)

/-- A device operand on line `n` (R99). -/
def deviceOperand (n : Nat) (t : Text) : Except AsmError Device :=
  match deviceOfToken t with
  | some d => .ok d
  | none => .error (.invalidDevice t n)

/-- Arity 1: the count is checked before the token is looked at (R94, R95). -/
def oneOperand (n : Nat) (rest : List Text) (field : Text → Except AsmError Instr) : Except AsmError Instr :=
  match rest with
  | [] => .error (.lineTooShort n)
  | [t] => field t
  | _ :: _ :: _ => .error (.lineTooLong n)

/-- Arity 2: the count is checked before either token is looked at (R94, R95). -/
def twoOperands (n : Nat) (rest : List Text) (fields : Text → Text → Except AsmError Instr) :
    Except AsmError Instr :=
  match rest with
  | [] => .error (.lineTooShort n)
  | [_] => .error (.lineTooShort n)
  | [t, u] => fields t u
  | _ :: _ :: _ :: _ => .error (.lineTooLong n)

/-- Immediate field, maximum 31 (R94, R97). -/
def immediateFields (c : Config) (n : Nat) (mk : Imm5 → Instr) (t : Text) : Except AsmError Instr :=
  match integerOperand c 31 n t with
  | .ok v => .ok (mk v)
  | .error e => .error e

/-- Source register, then destination register (R94; left to right, D20). -/
def registerPairFields (n : Nat) (mk : Register → Register → Instr) (t u : Text) : Except AsmError Instr :=
  match registerOperand n t with
  | .error e => .error e
  | .ok s =>
    match registerOperand n u with
    | .error e => .error e
    | .ok d => .ok (mk s d)

/-- Address field, maximum 16 (R94, R97; conflict C1). -/
def memoryAddressFields (c : Config) (n : Nat) (mk : Addr17 → Instr) (t : Text) : Except AsmError Instr :=
  match integerOperand c 16 n t with
  | .ok a => .ok (mk a)
  | .error e => .error e

/-- Device symbol, then function number, maximum 7 (R94, R97; left to right, D20). -/
def ioFields (c : Config) (n : Nat) (mk : Device → U3 → Instr) (t u : Text) : Except AsmError Instr :=
  match deviceOperand n t with
  | .error e => .error e
  | .ok d =>
    match integerOperand c 7 n u with
    | .error e => .error e
    | .ok f => .ok (mk d f)

end Sys2Proof.Machine
end

