-- ==== Sys2Proof/Machine/FrontEnd.lean ====
section
/-! DEFINITION. The front end (spec 30_encoding.md Part B): lines and tokens, the Mnemonic Resolver, the Operand
Validator, and the whole front end as one function over the list of lines (R104). Also the spelling of an instruction
as a source line, which stands for writing a program (log 1). -/

namespace Sys2Proof.Machine

/-! ### Lines and tokens -/

/-- The pieces between successive separators, empty pieces kept (R86, D15). Never the empty list. -/
def splitOn (sep : Char) : Text → List Text
  | [] => [[]]
  | ch :: rest =>
    if ch = sep then [] :: splitOn sep rest
    else
      match splitOn sep rest with
      | [] => [[ch]]
      | piece :: pieces => (ch :: piece) :: pieces

/-- The tokens of a line: every single space separates (R9, R86). -/
def tokens (l : Line) : List Text := splitOn ' ' l

/-- A line without the carriage return before its line feed, where the implementation removes it (D16, log 11). -/
def stripCr (c : Config) (l : Line) : Line :=
  if decide (l.getLast? = some (Char.ofNat 13)) && c.stripsCr then l.dropLast else l

/-- Pieces between line feeds to lines: the last piece has no line feed after it, and is no line when it is empty
(R85, D16). -/
def linesOfPieces (c : Config) : List Text → List Line
  | [] => []
  | [last] => if last = [] then [] else [last]
  | piece :: next :: more => stripCr c piece :: linesOfPieces c (next :: more)

/-- The source text as lines (R85). -/
def splitLines (c : Config) (t : Text) : List Line := linesOfPieces c (splitOn (Char.ofNat 10) t)

/-- ASCII white space: space, tab, line feed, vertical tab, form feed, carriage return (R87). -/
def isAsciiBlank (ch : Char) : Bool := decide (ch.toNat = 32) || (decide (9 ≤ ch.toNat) && decide (ch.toNat ≤ 13))

/-- White space; beyond ASCII it is open (R87, D17, log 10). -/
def isBlankChar (c : Config) (ch : Char) : Bool :=
  if ch.toNat < 128 then isAsciiBlank ch else c.isBlankBeyondAscii ch

/-- A line of white space only, the empty line included (R87). -/
def isBlankLine (c : Config) (l : Line) : Bool := l.all (isBlankChar c)

/-! ### The Mnemonic Resolver -/

/-- The opcode a lower-case name spells (R91, R103). -/
def opcodeOfName (t : Text) : Option Opcode :=
  if t = ['a', 'd', 'i'] then some .adi
  else if t = ['a', 'd', 'd'] then some .add
  else if t = ['s', 'u', 'b'] then some .sub
  else if t = ['j', 'n', 'e'] then some .jne
  else if t = ['j', 'g'] then some .jg
  else if t = ['j', 'l'] then some .jl
  else if t = ['i', 'o', 'i'] then some .ioi
  else if t = ['i', 'o', 'r'] then some .ior
  else none

/-- What the Resolver hands on (R93). -/
inductive Resolved where
  /-- the line is `hlt`: complete, the rest of it ignored (R92) -/
  | halt
  /-- opcode, indirect flag and remaining tokens, for the Validator -/
  | operation (opcode : Opcode) (flag : Bool) (rest : List Text)
deriving DecidableEq, Repr

/-- The Mnemonic Resolver on the mnemonic token of line `n` (R89 to R93): `hlt` before the suffix is stripped, then
`adip` refused, then the opcode match. The error carries the token as written (D21). -/
def resolveMnemonic (n : Nat) (token : Text) (rest : List Text) : Except AsmError Resolved :=
  if lower token = ['h', 'l', 't'] then .ok .halt
  else
    match stripSuffix (lower token) with
    | (stem, flag) =>
      if stem = ['a', 'd', 'i'] ∧ flag = true then .error (.invalidInstruction token n)
      else
        match opcodeOfName stem with
        | some o => .ok (.operation o flag rest)
        | none => .error (.invalidInstruction token n)

/-- The Mnemonic Resolver on the tokens of line `n`. A line has at least one token; the first arm is never used. -/
def resolve (n : Nat) : List Text → Except AsmError Resolved
  | [] => .error (.invalidInstruction [] n)
  | token :: rest => resolveMnemonic n token rest

/-! ### The Operand Validator -/

/-- The Operand Validator (R94 to R102): arity, then fields from left to right, then construction. The flag goes into
the RegisterPair and MemoryAddress shapes and is dropped by the others (R100). -/
def validate (c : Config) (n : Nat) (o : Opcode) (flag : Bool) (rest : List Text) : Except AsmError Instr :=
  match o with
  | .adi => oneOperand n rest (immediateFields c n Instr.adi)
  | .add => twoOperands n rest (registerPairFields n (Instr.add flag))
  | .sub => twoOperands n rest (registerPairFields n (Instr.sub flag))
  | .jne => oneOperand n rest (memoryAddressFields c n (Instr.jne flag))
  | .jg => oneOperand n rest (memoryAddressFields c n (Instr.jg flag))
  | .jl => oneOperand n rest (memoryAddressFields c n (Instr.jl flag))
  | .ioi => twoOperands n rest (ioFields c n Instr.ioi)
  | .ior => twoOperands n rest (ioFields c n Instr.ior)

/-! ### One line, and the whole front end -/

/-- What one source line is. -/
inductive LineResult where
  /-- skipped: no instruction, no slot (R87) -/
  | blank
  | instr (i : Instr)
  | error (e : AsmError)
deriving DecidableEq, Repr

/-- The byte a line result stands for, if it stands for one (R104). -/
def lineByte (c : Config) : LineResult → Option Byte
  | .blank => none
  | .instr i => some (encodeWith c i)
  | .error _ => none

/-- The front end on line `n` (R102, R104). -/
def readLine (c : Config) (n : Nat) (l : Line) : LineResult :=
  if isBlankLine c l then .blank
  else
    match resolve n (tokens l) with
    | .error e => .error e
    | .ok .halt => .instr .hlt
    | .ok (.operation o flag rest) =>
      match validate c n o flag rest with
      | .ok i => .instr i
      | .error e => .error e

/-- The loop of R104 from line `n` on, with the bytes so far in `out`. The step does not call it: it is the spec's
pseudocode, for statements to compare a run with. -/
def assembleFrom (c : Config) (n : Nat) (out : List Byte) : List Line → Except AsmError (List Byte)
  | [] => .ok out
  | l :: ls =>
    match readLine c n l with
    | .blank => assembleFrom c (n + 1) out ls
    | .instr i => assembleFrom c (n + 1) (out ++ [encodeWith c i]) ls
    | .error e => .error e

/-- `assemble(lines)` (R104). -/
def assemble (c : Config) (lines : List Line) : Except AsmError (List Byte) := assembleFrom c 1 [] lines

/-! ### Spelling an instruction -/

/-- One decimal digit. -/
def digitChar (d : Nat) : Char := Char.ofNat (48 + d)

/-- A number below 100 in decimal. -/
def spellNat (v : Nat) : Text := if v < 10 then [digitChar v] else [digitChar (v / 10), digitChar (v % 10)]

/-- The name of a register (R98). -/
def spellRegister : Register → Text
  | .ra => ['r', 'a']
  | .rb => ['r', 'b']
  | .rc => ['r', 'c']
  | .rd => ['r', 'd']

/-- The name of a device (R99). -/
def spellDevice : Device → Text
  | .cpu => ['c', 'p', 'u']
  | .kbd => ['k', 'b', 'd']
  | .scr => ['s', 'c', 'r']
  | .mth => ['m', 't', 'h']

/-- A mnemonic with the suffix its flag asks for (R89, R103). -/
def spellMnemonic (name : Text) (flag : Bool) : Text := if flag then name ++ ['p'] else name

/-- A source line that spells the instruction (R94, R103). -/
def spell : Instr → Line
  | .adi value => ['a', 'd', 'i', ' '] ++ spellNat value.val
  | .add f s d => spellMnemonic ['a', 'd', 'd'] f ++ ' ' :: spellRegister s ++ ' ' :: spellRegister d
  | .sub f s d => spellMnemonic ['s', 'u', 'b'] f ++ ' ' :: spellRegister s ++ ' ' :: spellRegister d
  | .jne f a => spellMnemonic ['j', 'n', 'e'] f ++ ' ' :: spellNat a.val
  | .jg f a => spellMnemonic ['j', 'g'] f ++ ' ' :: spellNat a.val
  | .jl f a => spellMnemonic ['j', 'l'] f ++ ' ' :: spellNat a.val
  | .ioi v f => ['i', 'o', 'i', ' '] ++ spellDevice v ++ ' ' :: spellNat f.val
  | .ior v f => ['i', 'o', 'r', ' '] ++ spellDevice v ++ ' ' :: spellNat f.val
  | .hlt => ['h', 'l', 't']

end Sys2Proof.Machine
end

