-- ==== Sys2Proof/Machine/Fetch.lean ====
section
/-! DEFINITION. Where a step finds its next instruction: the source line the line counter names (spec 10_state.md R31). -/

namespace Sys2Proof.Machine

/-- The line at the line counter, `none` past the last line. Line 1 is the first (R9). -/
def fetchLine (s : State) : Option Line := s.source[s.lineNo - 1]?

/-- The list with the line at an index replaced; blank lines fill a list that is too short. -/
def placeLine (l : Line) : Nat → List Line → List Line
  | 0, [] => [l]
  | 0, _ :: rest => l :: rest
  | k + 1, [] => [] :: placeLine l k []
  | k + 1, x :: rest => x :: placeLine l k rest

/-- The state in which the next step takes the instruction's line: the run is under way and the line at the line counter
spells the instruction. -/
def placeInstr (i : Instr) (s : State) : State :=
  { s with phase := .assembling, source := placeLine (spell i) (s.lineNo - 1) s.source }

end Sys2Proof.Machine
end

