-- ==== Sys2Proof/Machine/Serializer.lean ====
section
/-! DEFINITION. The beginning and the end of a run: the command line and the initial read (spec 60_exceptions.md R186,
R188), the Program Serializer and the final write (20_memory.md R41 to R43, R50; 60_exceptions.md R187). -/

namespace Sys2Proof.Machine

/-- `for k in 0..n-1: MemWrite(H + k, 1, OUT[k])` (R41). -/
def copyBody (out : Memory) (h : Nat) : Nat → Memory → Memory
  | 0, m => m
  | n + 1, m =>
    match Memory.read out n with
    | some v => Memory.write (copyBody out h n m) (h + n) v
    | none => copyBody out h n m

/-- The file image: the magic header's bytes, then the program body, and nothing else (R41, R43). -/
def fileImage (c : Config) (s : State) : Memory :=
  copyBody s.out c.magicBytes.length s.slot (Memory.writeBytes [] 0 c.magicBytes)

/-- The reported byte count: header length plus body length (R41). -/
def imageSize (c : Config) (s : State) : Nat := c.magicBytes.length + s.slot

/-- The image is written whole and the success line printed (R41, R50, R187); what the run kept is dropped, its bytes now
being in the image (R31). -/
def succeed (c : Config) (s : State) : State :=
  { dropTransient s with
    phase := .succeeded
    image := some (fileImage c s)
    stdout := s.stdout ++ ["wrote " ++ toString (imageSize c s) ++ " bytes to " ++ outputPath s]
    exitStatus := some 0 }

/-- Every line has succeeded: the image is written, or the write fails (R50, R183, R187). -/
def commit (c : Config) (s : State) : State :=
  match s.writeFailure with
  | some cause => abortWrite c cause s
  | none => succeed c s

/-- A wrong argument count: the usage message goes to standard error, nothing is read or written, and the exit status
is not specified (R188): both are free values (log 14). -/
def showUsage (c : Config) (s : State) : State :=
  { s with
    phase := .usageShown
    stderr := s.stderr ++ [c.usageText s.draws]
    exitStatus := some (c.usageExit s.draws)
    draws := s.draws + 1 }

/-- The source is in memory and the run starts from nothing (R31, R35, R201). -/
def beginRun (lines : List Line) (s : State) : State :=
  { dropTransient s with
    phase := .assembling
    source := lines
    image := none
    error := none }

/-- The start of a run: the argument count, then the initial read (R186, R188, R182). -/
def startRun (c : Config) (s : State) : State :=
  match s.args with
  | [_, _] =>
    match s.inputFile with
    | .text t => beginRun (splitLines c t) s
    | .failed cause => abortRead c cause s
  | [] => showUsage c s
  | [_] => showUsage c s
  | _ :: _ :: _ :: _ => showUsage c s

end Sys2Proof.Machine
end

