-- ==== Sys2Proof/Machine/Run.lean ====
section
/-! DEFINITION. What a run under way does next: one source line, or the commit (spec 30_encoding.md R104, 20_memory.md R49,
R50). -/

namespace Sys2Proof.Machine

/-- One source line under the front end: skipped, encoded, or the end of the run (R104). The line counter has moved to the
next line when the instruction's meaning runs (log 2). -/
def stepLine (s : State) (l : Line) : Host.Outcome State Fault Refusal :=
  match readLine pactConfig s.lineNo l with
  | .blank => .next (advanceLine s)
  | .instr i => exec i (advanceLine s)
  | .error e => .next (abortLine pactConfig e s)

/-- The next line if there is one, else the commit (R49, R50). -/
def stepAssembling (s : State) : Host.Outcome State Fault Refusal :=
  match fetchLine s with
  | some l => stepLine s l
  | none => .next (commit pactConfig s)

end Sys2Proof.Machine
end

