-- ==== Sys2Proof/Machine/Step.lean ====
section
/-! DEFINITION. The step: one action of the single thread (spec 20_memory.md R49; log 2). -/

namespace Sys2Proof.Machine

/-- Begin the run, take one line, or commit the output; a run that has ended stays as it is (R184, R206; log 3). -/
def step (s : State) : Host.Outcome State Fault Refusal :=
  match s.phase with
  | .start => .next (startRun pactConfig s)
  | .assembling => stepAssembling s
  | .succeeded => .next s
  | .failed => .next s
  | .usageShown => .next s

/-- The instruction whose bits are `w`, stored where the next step takes it: as the source line at the line counter of a
run under way (log 1). -/
def State.withFetchWord (s : State) (nbits w : Nat) : State :=
  match decodeTableWord nbits w with
  | some i => placeInstr i s
  | none => s

end Sys2Proof.Machine
end

