-- ==== Sys2Proof/Machine/Ports.lean ====
section
/-! DEFINITION. The flat port view of the encoder block (spec 10_state.md R22, R23): wires, not state. It is a second
rendering of the typed interface (R21), which the machine uses. -/

namespace Sys2Proof.Machine

/-- The input ports. `addr` carries the seventeen values of the domain: a value above 16 cannot be written (R22, R204,
D9). -/
structure Ports where
  op : BitVec 3
  imm : BitVec 5
  flag : BitVec 1
  src : BitVec 2
  dst : BitVec 2
  addr : Addr17
  dev : BitVec 2
  fn : BitVec 3
deriving DecidableEq, Repr

/-- The ports with an instruction on them; the ports its category does not read keep whatever they carry (R22). -/
def drive (c : Config) (i : Instr) (idle : Ports) : Ports :=
  match i with
  | .adi v => { idle with op := c.opcodeCode .adi, imm := BitVec.ofNat 5 v.val }
  | .add f s d => { idle with op := c.opcodeCode .add, flag := boolBit c f, src := c.registerCode s, dst := c.registerCode d }
  | .sub f s d => { idle with op := c.opcodeCode .sub, flag := boolBit c f, src := c.registerCode s, dst := c.registerCode d }
  | .jne f a => { idle with op := c.opcodeCode .jne, flag := boolBit c f, addr := a }
  | .jg f a => { idle with op := c.opcodeCode .jg, flag := boolBit c f, addr := a }
  | .jl f a => { idle with op := c.opcodeCode .jl, flag := boolBit c f, addr := a }
  | .ioi v f => { idle with op := c.opcodeCode .ioi, dev := c.deviceCode v, fn := BitVec.ofNat 3 f.val }
  | .ior v f => { idle with op := c.opcodeCode .ior, dev := c.deviceCode v, fn := BitVec.ofNat 3 f.val }
  | .hlt => { idle with op := c.opcodeCode .ioi, dev := c.deviceCode .cpu, fn := 0 }

/-- The payload wires the category reads (R22, R63 to R66). -/
def portPayload (c : Config) (p : Ports) : Category → BitVec 5
  | .immediate => p.imm
  | .registerPair => p.flag ++ p.src ++ p.dst
  | .memoryAddress =>
    if p.addr.val ≤ 15 then p.flag ++ BitVec.ofNat 4 p.addr.val else c.addr16Low5 (flagOfBit c p.flag)
  | .ioOperation => p.dev ++ p.fn

/-- The output port `q` (R23); `none` where `op` carries the code of no opcode, which unique codes rule out (R62). -/
def blockOutput (c : Config) (p : Ports) : Option Byte :=
  match opcodeOfCode c p.op with
  | some o => some (p.op ++ portPayload c p o.category)
  | none => none

end Sys2Proof.Machine
end

