-- ==== Sys2Proof/Safety.lean ====
section
/-! DEFINITION. What counts as a good state of a run, in the terms the statements use. -/

namespace Sys2Proof.Machine

/-- The program body the rules ask for: `OUT[k] = encode(program[k])`, dense, nothing else (spec 20_memory.md R40, R45,
R49). -/
def bodyOf (program : List Instr) : Memory := Memory.ofBytes 0 (program.map (encodeWith pactConfig))

/-- The file image the rules ask for: header, then body, nothing else (R41, R43). -/
def imageOf (program : List Instr) : Memory :=
  Memory.ofBytes 0 (pactConfig.magicBytes ++ program.map (encodeWith pactConfig))

/-- The success message for a program and an output path (R41, R187). -/
def successMessage (program : List Instr) (path : String) : String :=
  "wrote " ++ toString (pactConfig.magicBytes.length + program.length) ++ " bytes to " ++ path

/-- The run has ended (R206). -/
def ended (s : State) : Bool :=
  match s.phase with
  | .start => false
  | .assembling => false
  | .succeeded => true
  | .failed => true
  | .usageShown => true

/-- Nothing of the run can be seen yet: no image, no error, no line printed, no exit status (R50, R201). -/
def Unseen (s : State) : Prop :=
  s.image = none ∧ s.error = none ∧ s.stdout = [] ∧ s.stderr = [] ∧ s.exitStatus = none

/-- The run keeps nothing: no source text, no program, no byte, both counters where a run starts (R31, R35; log 17). -/
def Dropped (s : State) : Prop := s.source = [] ∧ s.lineNo = 1 ∧ s.program = [] ∧ s.slot = 0 ∧ s.out = []

/-- What can be seen of a run, by the phase it is in (R50, R183, R187, R188, R206). -/
def VisibleOutcome (s : State) : Prop :=
  match s.phase with
  | .start => Unseen s
  | .assembling => Unseen s
  | .succeeded =>
    s.error = none ∧ s.exitStatus = some 0 ∧ s.stderr = [] ∧
      ∃ program, Instr.hlt ∉ program ∧ s.image = some (imageOf program) ∧
        s.stdout = [successMessage program (outputPath s)]
  | .failed =>
    s.image = none ∧ s.exitStatus = some 1 ∧ s.stdout = [] ∧ (∃ e, s.error = some e) ∧ ∃ line, s.stderr = [line]
  | .usageShown =>
    s.image = none ∧ s.error = none ∧ s.stdout = [] ∧
      (∃ line, s.stderr = [line]) ∧ ∃ x, s.exitStatus = some x

/-- The invariant of a run: the body is the encoding of the program, the slot index counts it, the line counter is
1-based, the program holds no pseudo-instruction, nothing is kept outside the line-by-line build (R31), and what can be
seen fits the phase. -/
structure RunInv (s : State) : Prop where
  body : s.out = bodyOf s.program
  slot : s.slot = s.program.length
  line : 1 ≤ s.lineNo
  core : Instr.hlt ∉ s.program
  kept : s.phase ≠ .assembling → Dropped s
  seen : VisibleOutcome s

/-- What encoding one instruction does to the run, and that it does nothing else: the byte `q` lands at `OUT[slot]`, every
other address of the body reads as before, the instruction takes the slot of the program, the slot index moves on; every
other field, the error and exit records among them, is as before (R33, R34, R40, R170). -/
structure Emitted (q : Byte) (i : Instr) (s t : State) : Prop where
  stored : Memory.read t.out s.slot = some q
  elsewhere : ∀ a, a ≠ s.slot → Memory.read t.out a = Memory.read s.out a
  program : t.program = s.program ++ [i]
  slot : t.slot = s.slot + 1
  image : t.image = s.image
  phase : t.phase = s.phase
  lineNo : t.lineNo = s.lineNo
  source : t.source = s.source
  error : t.error = s.error
  stdout : t.stdout = s.stdout
  stderr : t.stderr = s.stderr
  exitStatus : t.exitStatus = s.exitStatus
  args : t.args = s.args
  inputFile : t.inputFile = s.inputFile
  writeFailure : t.writeFailure = s.writeFailure
  draws : t.draws = s.draws

/-- Both output spaces are in canonical form (20_memory.md R40, R41). -/
def memoriesWf (s : State) : Bool :=
  Memory.wf s.out &&
    match s.image with
    | some m => Memory.wf m
    | none => true

end Sys2Proof.Machine
end

