-- ==== Sys2Proof/Certificates/Slice0/Obligations.lean ====
section
/-! DEFINITION. The statements for the provers. `c` ranges over every configuration: every code map, flag polarity, magic
header, address-16 payload, parser limit and message text. A statement about the machine holds for whatever values the
free constants of `pactConfig` have. -/

open Sys2Proof
open Sys2Proof.Machine

/-! ### The encoding -/

/-- R61: `q[7:5] = OPCODE_CODE(opcode)` and `q[4:0] = payload`; the opcode is in bits 7:5 uniquely per opcode. -/
def Obligations.OpcodeCodeThenPayload : Prop :=
  ∀ c : Config, c.UniqueCodes →
    (∀ i : Instr,
      (encodeWith c i).extractLsb' 5 3 = c.opcodeCode i.opcode ∧ (encodeWith c i).extractLsb' 0 5 = payloadOf c i) ∧
    ∀ i j : Instr, (encodeWith c i).extractLsb' 5 3 = (encodeWith c j).extractLsb' 5 3 ↔ i.opcode = j.opcode

/-- R71: the encode function as numbers, `32·op3 + pay`, shape by shape, address 16 included. -/
def Obligations.EncodeFunctionByShape : Prop :=
  ∀ (c : Config) (i : Instr),
    (encodeWith c i).toNat = 32 * (c.opcodeCode i.opcode).toNat +
      match i with
      | .adi v => v.val
      | .add f s d => 16 * (boolBit c f).toNat + 4 * (c.registerCode s).toNat + (c.registerCode d).toNat
      | .sub f s d => 16 * (boolBit c f).toNat + 4 * (c.registerCode s).toNat + (c.registerCode d).toNat
      | .jne f a => if a.val ≤ 15 then 16 * (boolBit c f).toNat + a.val else (c.addr16Low5 f).toNat
      | .jg f a => if a.val ≤ 15 then 16 * (boolBit c f).toNat + a.val else (c.addr16Low5 f).toNat
      | .jl f a => if a.val ≤ 15 then 16 * (boolBit c f).toNat + a.val else (c.addr16Low5 f).toNat
      | .ioi v f => 8 * (c.deviceCode v).toNat + f.val
      | .ior v f => 8 * (c.deviceCode v).toNat + f.val
      | .hlt => 8 * (c.deviceCode .cpu).toNat

/-- R63: format I. The opcode in bits 7:5, the value in bits 4:0, and every 5-bit pattern is a legal payload. -/
def Obligations.FormatImmediate : Prop :=
  ∀ c : Config,
    (∀ v : Imm5, (encodeWith c (.adi v)).extractLsb' 5 3 = c.opcodeCode .adi ∧
      ((encodeWith c (.adi v)).extractLsb' 0 5).toNat = v.val) ∧
    ∀ p : BitVec 5, ∃ v : Imm5, (encodeWith c (.adi v)).extractLsb' 0 5 = p

/-- R64: format R. The flag in bit 4, the source register in bits 3:2, the destination in bits 1:0, and every 5-bit pattern
is a legal payload. -/
def Obligations.FormatRegisterPair : Prop :=
  ∀ c : Config, c.UniqueCodes →
    (∀ (f : Bool) (s d : Register), ∀ row ∈ [(Opcode.add, Instr.add f s d), (Opcode.sub, Instr.sub f s d)],
      (encodeWith c row.2).extractLsb' 5 3 = c.opcodeCode row.1 ∧
      (encodeWith c row.2).extractLsb' 4 1 = boolBit c f ∧
      (encodeWith c row.2).extractLsb' 2 2 = c.registerCode s ∧
      (encodeWith c row.2).extractLsb' 0 2 = c.registerCode d) ∧
    ∀ p : BitVec 5, ∃ (f : Bool) (s d : Register),
      (encodeWith c (.add f s d)).extractLsb' 0 5 = p ∧ (encodeWith c (.sub f s d)).extractLsb' 0 5 = p

/-- R65 (the clause on 16 is the spec's decision D8): format M. For an address up to 15 the flag is in bit 4 and the address
in bits 3:0; for 16 the payload is the open parameter; every 5-bit pattern is the payload of exactly one (flag, address up
to 15) pair. -/
def Obligations.FormatMemoryAddress : Prop :=
  ∀ c : Config, ∀ mk ∈ [(Opcode.jne, Instr.jne), (Opcode.jg, Instr.jg), (Opcode.jl, Instr.jl)],
    (∀ (f : Bool) (a : Addr17), (encodeWith c (mk.2 f a)).extractLsb' 5 3 = c.opcodeCode mk.1) ∧
    (∀ (f : Bool) (a : Addr17), a.val ≤ 15 →
      (encodeWith c (mk.2 f a)).extractLsb' 4 1 = boolBit c f ∧
      ((encodeWith c (mk.2 f a)).extractLsb' 0 4).toNat = a.val) ∧
    (∀ f : Bool, (encodeWith c (mk.2 f 16)).extractLsb' 0 5 = c.addr16Low5 f) ∧
    ∀ p : BitVec 5, ∃! fa : Bool × Addr17, fa.2.val ≤ 15 ∧ (encodeWith c (mk.2 fa.1 fa.2)).extractLsb' 0 5 = p

/-- R66: format D. The device in bits 4:3, the function in bits 2:0, and every 5-bit pattern is a legal payload. -/
def Obligations.FormatIoOperation : Prop :=
  ∀ c : Config, c.UniqueCodes →
    (∀ (v : Device) (f : U3), ∀ row ∈ [(Opcode.ioi, Instr.ioi v f), (Opcode.ior, Instr.ior v f)],
      (encodeWith c row.2).extractLsb' 5 3 = c.opcodeCode row.1 ∧
      (encodeWith c row.2).extractLsb' 3 2 = c.deviceCode v ∧
      ((encodeWith c row.2).extractLsb' 0 3).toNat = f.val) ∧
    ∀ p : BitVec 5, ∃ (v : Device) (f : U3),
      (encodeWith c (.ioi v f)).extractLsb' 0 5 = p ∧ (encodeWith c (.ior v f)).extractLsb' 0 5 = p

/-- R80, first half: decoding the encoding gives the instruction back, for every instruction whose address fits, under every
assignment of unique codes and either flag polarity. `hlt` comes back as `ioi cpu 0` (R78). -/
def Obligations.DecodeOfEncode : Prop :=
  ∀ c : Config, c.UniqueCodes → ∀ i : Instr, i.exact = true → decodeByte c (encodeWith c i) = some i.expand

/-- R76 and R80, second half: every byte is the encoding of exactly one instruction with address at most 15 (pseudo-instruction
aside), and it is the one the byte decodes to. -/
def Obligations.EveryByteIsOneInstruction : Prop :=
  ∀ c : Config, c.UniqueCodes → ∀ b : Byte,
    (∃! i : Instr, i.exact = true ∧ i ≠ .hlt ∧ encodeWith c i = b) ∧
    ∃ i : Instr, decodeByte c b = some i ∧ i.exact = true ∧ i ≠ .hlt ∧ encodeWith c i = b

/-- R77: an instruction with address 16 shares its byte with another instruction of the same opcode, whatever the open
parameter is, and the byte does not decode to it. -/
def Obligations.AddressSixteenCollides : Prop :=
  ∀ c : Config, c.UniqueCodes → ∀ i : Instr, i.exact = false →
    (∃ j : Instr, j ≠ i ∧ j.exact = true ∧ j.opcode = i.opcode ∧ encodeWith c j = encodeWith c i) ∧
    decodeByte c (encodeWith c i) ≠ some i

/-- R22, R23: the flat ports give the byte of the typed interface, and the ports that the category does not read do not
matter. -/
def Obligations.PortsGiveTheEncoding : Prop :=
  ∀ c : Config, c.UniqueCodes → ∀ (i : Instr) (idle : Ports), blockOutput c (drive c i idle) = some (encodeWith c i)

/-- R29: a raw pair is well formed exactly when it is the pair of an instruction, and then of exactly one (pseudo-instruction
aside). -/
def Obligations.WellFormedPairsAreInstructions : Prop :=
  ∀ r : RawInstr, r.wellFormed = true ↔ ∃! i : Instr, i ≠ .hlt ∧ i.raw = r

/-- R75, R67, R68: the default register and device codes as numbers, in listing order, and the bytes under the default codes
(the spec's decisions D3 to D7, log 5 and log 6). -/
def Obligations.DefaultOpcodeMap : Prop :=
  ((listingRegisterCode .ra).toNat = 0 ∧ (listingRegisterCode .rb).toNat = 1 ∧ (listingRegisterCode .rc).toNat = 2 ∧
    (listingRegisterCode .rd).toNat = 3) ∧
  ((listingDeviceCode .cpu).toNat = 0 ∧ (listingDeviceCode .kbd).toNat = 1 ∧ (listingDeviceCode .scr).toNat = 2 ∧
    (listingDeviceCode .mth).toNat = 3) ∧
  (∀ v : Imm5, (encodeWith pactConfig (.adi v)).toNat = v.val) ∧
  (∀ (f : Bool) (s d : Register),
    (encodeWith pactConfig (.add f s d)).toNat =
      0x20 + 16 * f.toNat + 4 * (listingRegisterCode s).toNat + (listingRegisterCode d).toNat ∧
    (encodeWith pactConfig (.sub f s d)).toNat =
      0x40 + 16 * f.toNat + 4 * (listingRegisterCode s).toNat + (listingRegisterCode d).toNat) ∧
  (∀ (f : Bool) (a : Addr17), a.val ≤ 15 →
    (encodeWith pactConfig (.jne f a)).toNat = 0x60 + 16 * f.toNat + a.val ∧
    (encodeWith pactConfig (.jg f a)).toNat = 0x80 + 16 * f.toNat + a.val ∧
    (encodeWith pactConfig (.jl f a)).toNat = 0xA0 + 16 * f.toNat + a.val) ∧
  (∀ (v : Device) (f : U3),
    (encodeWith pactConfig (.ioi v f)).toNat = 0xC0 + 8 * (listingDeviceCode v).toNat + f.val ∧
    (encodeWith pactConfig (.ior v f)).toNat = 0xE0 + 8 * (listingDeviceCode v).toNat + f.val) ∧
  encodeWith pactConfig .hlt = 0xC0

/-- Words written out from the encodings of R120, R130, R131, R140 to R142, R155, R156 decode to the instructions they stand
for (default codes, log 5). -/
def Obligations.SampleWordsDecode : Prop :=
  decodeTableWord 8 0b00000101 = some (.adi 5) ∧
  decodeTableWord 8 0b00111110 = some (.add true .rd .rc) ∧
  decodeTableWord 8 0b01001011 = some (.sub false .rc .rd) ∧
  decodeTableWord 8 0b01110101 = some (.jne true 5) ∧
  decodeTableWord 8 0b10001111 = some (.jg false 15) ∧
  decodeTableWord 8 0b10110100 = some (.jl true 4) ∧
  decodeTableWord 8 0b11001011 = some (.ioi .kbd 3) ∧
  decodeTableWord 8 0b11110111 = some (.ior .scr 7)

/-! ### The instructions -/

/-- R170: encoding raises nothing, sets no error output and has no failing input: every instruction answers a next state from
every state, and no record of an error or of an end changes. -/
def Obligations.EncodingRaisesNothing : Prop :=
  ∀ (i : Instr) (s : State), ∃ t, exec i s = .next t ∧
    t.error = s.error ∧ t.stderr = s.stderr ∧ t.exitStatus = s.exitStatus ∧ t.phase = s.phase

/-- R71, R40: what `exec` emits is the encode function's byte, for all nine constructors: the pseudocode of each instruction
rule agrees with the one encode function, and nothing else of the state changes. -/
def Obligations.ExecEmitsTheEncoding : Prop :=
  ∀ (i : Instr) (s : State), ∃ t, exec i s = .next t ∧ Emitted (encodeWith pactConfig i) i.expand s t

/-- R120: `adi value` completes from every state; the byte has the opcode code on top and the value below; nothing else
changes. -/
def Obligations.AdiCompletes : Prop :=
  ∀ (v : Imm5) (s : State), ∃ t q, exec (.adi v) s = .next t ∧ Emitted q (.adi v) s t ∧
    q.toNat = 32 * (pactConfig.opcodeCode .adi).toNat + v.val

/-- R130, R131: `add` and `sub`, both flags and all sixteen register pairs, complete from every state; nothing else changes. -/
def Obligations.AddSubComplete : Prop :=
  ∀ (f : Bool) (s d : Register) (st : State),
    ∀ row ∈ [(Opcode.add, Instr.add f s d), (Opcode.sub, Instr.sub f s d)],
      ∃ t q, exec row.2 st = .next t ∧ Emitted q row.2 st t ∧
        q.toNat = 32 * (pactConfig.opcodeCode row.1).toNat + 16 * (boolBit pactConfig f).toNat +
          4 * (pactConfig.registerCode s).toNat + (pactConfig.registerCode d).toNat

/-- R140 to R143: `jne`, `jg`, `jl`, both flags and all seventeen addresses, complete from every state; the address is copied
where it fits, and for 16 the low five bits are the open parameter (one function for the three); nothing else changes. -/
def Obligations.JumpsComplete : Prop :=
  ∀ (f : Bool) (a : Addr17) (s : State),
    ∀ row ∈ [(Opcode.jne, Instr.jne f a), (Opcode.jg, Instr.jg f a), (Opcode.jl, Instr.jl f a)],
      ∃ t q, exec row.2 s = .next t ∧ Emitted q row.2 s t ∧
        q.toNat = 32 * (pactConfig.opcodeCode row.1).toNat +
          if a.val ≤ 15 then 16 * (boolBit pactConfig f).toNat + a.val else (pactConfig.addr16Low5 f).toNat

/-- R155, R156: `ioi` and `ior`, all devices and functions, complete from every state; nothing else changes. -/
def Obligations.IoOperationsComplete : Prop :=
  ∀ (v : Device) (f : U3) (s : State), ∀ row ∈ [(Opcode.ioi, Instr.ioi v f), (Opcode.ior, Instr.ior v f)],
    ∃ t q, exec row.2 s = .next t ∧ Emitted q row.2 s t ∧
      q.toNat = 32 * (pactConfig.opcodeCode row.1).toNat + 8 * (pactConfig.deviceCode v).toNat + f.val

/-- R157: `hlt` completes from every state exactly as `ioi cpu 0` does: same byte, same program entry, nothing halts. -/
def Obligations.HltIsIoiCpuZero : Prop :=
  ∀ s : State, ∃ t q, exec .hlt s = .next t ∧ exec (.ioi .cpu 0) s = .next t ∧ Emitted q (.ioi .cpu 0) s t ∧
    q.toNat = 32 * (pactConfig.opcodeCode .ioi).toNat + 8 * (pactConfig.deviceCode .cpu).toNat

/-! ### The step -/

/-- R104, R31: when the line at the line counter reads as an instruction, the step is `exec` of that instruction with the
line counter moved to the next line and nothing else moved. -/
def Obligations.StepRunsTheInstructionOfTheLine : Prop :=
  ∀ (s : State) (l : Line) (i : Instr), s.phase = .assembling → fetchLine s = some l →
    readLine pactConfig s.lineNo l = .instr i → step s = exec i { s with lineNo := s.lineNo + 1 }

/-- A byte placed where the step fetches is the instruction it decodes to, and running it emits that very byte, from every
state (R80, R104; how a word is placed is the model's choice, log 1). -/
def Obligations.PlacedWordRunsAndEmitsItself : Prop :=
  ∀ (s : State) (w : Nat), w < 256 → ∃ i t, decodeTableWord 8 w = some i ∧
    step (s.withFetchWord 8 w) = exec i (advanceLine (s.withFetchWord 8 w)) ∧
    step (s.withFetchWord 8 w) = .next t ∧ Memory.read t.out s.slot = some (BitVec.ofNat 8 w)

/-- R54: a blank line leaves no trace in any output space and does not count as an instruction; only the line counter moves. -/
def Obligations.BlankLineOnlyMovesTheLineCounter : Prop :=
  ∀ (s : State) (l : Line), s.phase = .assembling → fetchLine s = some l → isBlankLine pactConfig l = true →
    step s = .next { s with lineNo := s.lineNo + 1 }

/-- R183 (line errors), R8: a line error ends the run: the bytes and instructions so far are dropped, there is no image, the
error is recorded, one diagnostic line `failed to parse file: <message>` goes to standard error, the exit status is 1. What
the dropped fields are left at is the model's choice (log 17). -/
def Obligations.LineErrorEndsTheRun : Prop :=
  ∀ (s : State) (l : Line) (e : AsmError), s.phase = .assembling → fetchLine s = some l →
    readLine pactConfig s.lineNo l = .error e → ∃ t message, step s = .next t ∧
      t.phase = .failed ∧ t.image = none ∧ t.error = some e ∧ t.exitStatus = some 1 ∧
      t.out = [] ∧ t.program = [] ∧ t.slot = 0 ∧ t.source = [] ∧
      t.stdout = s.stdout ∧ t.stderr = s.stderr ++ ["failed to parse file: " ++ message]

/-- R179, R183, R180: a failed initial read and a failed final write end the run with the file system's error, wrapped as it
is: nothing written, one diagnostic line, exit status 1; the diagnostic of a failed write names the output path. That a
failed write leaves no image is R50 read for failed writes too (log 16), and that the body and the program are left empty is
the model's reading of R8 and R31 (log 17). -/
def Obligations.FileErrorsEndTheRun : Prop :=
  ∀ (s : State) (src dst : String) (cause : IoCause), s.args = [src, dst] →
    (s.phase = .start → s.inputFile = .failed cause → ∃ t line, step s = .next t ∧
      t.phase = .failed ∧ t.image = none ∧ t.error = some (.ioError cause) ∧ t.exitStatus = some 1 ∧
      t.out = [] ∧ t.program = [] ∧ t.stdout = s.stdout ∧ t.stderr = s.stderr ++ [line]) ∧
    (s.phase = .assembling → fetchLine s = none → s.writeFailure = some cause → ∃ t message, step s = .next t ∧
      t.phase = .failed ∧ t.image = none ∧ t.error = some (.ioError cause) ∧ t.exitStatus = some 1 ∧
      t.out = [] ∧ t.program = [] ∧ t.stdout = s.stdout ∧
      t.stderr = s.stderr ++ ["failed to write to file '" ++ dst ++ "': " ++ message])

/-- R41, R43: when every line has succeeded and the write does, the image holds the magic header, then the body, and nothing
else: `F[j] = MAGIC_BYTES[j]`, `F[H + k] = OUT[k]`, no byte from `H + n` on. -/
def Obligations.ImageIsHeaderThenBody : Prop :=
  ∀ s : State, s.phase = .assembling → fetchLine s = none → s.writeFailure = none →
    (∀ k, k < s.slot → (Memory.read s.out k).isSome = true) → ∃ t m, step s = .next t ∧ t.image = some m ∧
      (∀ j, j < pactConfig.magicBytes.length → Memory.read m j = pactConfig.magicBytes[j]?) ∧
      (∀ k, k < s.slot → Memory.read m (pactConfig.magicBytes.length + k) = Memory.read s.out k) ∧
      (∀ a, pactConfig.magicBytes.length + s.slot ≤ a → Memory.read m a = none) ∧
      t.stdout = s.stdout ++
        ["wrote " ++ toString (pactConfig.magicBytes.length + s.slot) ++ " bytes to " ++ outputPath s]

/-- R187: on success the line `wrote <N> bytes to <output-path>` is printed, N being the number of bytes of the image, header
included, and the exit status is 0. -/
def Obligations.SuccessReportsTheImageLength : Prop :=
  ∀ (s : State) (src dst : String), RunInv s → s.args = [src, dst] → s.phase = .assembling → fetchLine s = none →
    s.writeFailure = none → ∃ t m, step s = .next t ∧ t.image = some m ∧ t.exitStatus = some 0 ∧
      t.phase = .succeeded ∧ t.stdout = ["wrote " ++ toString m.length ++ " bytes to " ++ dst]

/-- R188: any argument count other than two prints a usage message to standard error; nothing is read, encoded or written; the
process has ended with a status the spec does not specify. -/
def Obligations.WrongArgumentCountShowsUsage : Prop :=
  ∀ s : State, s.phase = .start → s.args.length ≠ 2 → ∃ t usage status, step s = .next t ∧
    t.phase = .usageShown ∧ t.stderr = s.stderr ++ [usage] ∧ t.exitStatus = some status ∧ t.stdout = s.stdout ∧
    t.source = s.source ∧ t.program = s.program ∧ t.slot = s.slot ∧ t.out = s.out ∧ t.image = s.image ∧
    t.error = s.error ∧ t.lineNo = s.lineNo

/-- R201: each run starts from nothing: line counter 1, program empty, no byte produced, no error recorded, whatever the
state held before; and a second run on the same inputs gives the same output, whatever either state held before. -/
def Obligations.RunStartsFromNothing : Prop :=
  ∀ (s : State) (src dst : String) (text : Text), s.phase = .start → s.args = [src, dst] → s.inputFile = .text text →
    (∃ t, step s = .next t ∧ t.phase = .assembling ∧ t.lineNo = 1 ∧ t.program = [] ∧ t.slot = 0 ∧ t.out = [] ∧
      t.image = none ∧ t.error = none ∧ t.source = splitLines pactConfig text) ∧
    ∀ s' : State, s'.phase = .start → s'.args = s.args → s'.inputFile = s.inputFile → s'.writeFailure = s.writeFailure →
      ∀ (k : Nat) (t t' : State), core.run (k + 1) s = .next t → core.run (k + 1) s' = .next t' →
        t'.phase = t.phase ∧ t'.image = t.image ∧ t'.error = t.error ∧ t'.out = t.out ∧ t'.program = t.program

/-- R184, R206, and the model's choice for a run that has ended (log 3): nothing resumes it, however many steps are taken. -/
def Obligations.EndedRunIsFinal : Prop :=
  ∀ (s : State) (k : Nat), ended s = true → core.run k s = .next s

/-! ### The front end -/

/-- R103 (spellings and suffix D11 to D14, log 12): the complete table of mnemonic spellings; anything else is
`InvalidInstruction` naming the token as written (R91, R174; D21, log 13). So too for a whole line: `hlt` is its instruction,
another spelling of the table makes the line what the Validator answers on the remaining tokens, and any other first token of
a line that is not blank makes it that error (R102, R104). -/
def Obligations.MnemonicTable : Prop :=
  ∀ (n : Nat) (token : Text) (rest : List Text),
    (lower token = ['h', 'l', 't'] → resolveMnemonic n token rest = .ok .halt ∧
      ∀ (c : Config) (l : Line), tokens l = token :: rest → readLine c n l = .instr .hlt) ∧
    (∀ row ∈ [(['a', 'd', 'i'], Opcode.adi, false), (['a', 'd', 'd'], .add, false), (['a', 'd', 'd', 'p'], .add, true),
        (['s', 'u', 'b'], .sub, false), (['s', 'u', 'b', 'p'], .sub, true), (['j', 'n', 'e'], .jne, false),
        (['j', 'n', 'e', 'p'], .jne, true), (['j', 'g'], .jg, false), (['j', 'g', 'p'], .jg, true),
        (['j', 'l'], .jl, false), (['j', 'l', 'p'], .jl, true), (['i', 'o', 'i'], .ioi, false),
        (['i', 'o', 'i', 'p'], .ioi, true), (['i', 'o', 'r'], .ior, false), (['i', 'o', 'r', 'p'], .ior, true)],
      lower token = row.1 → resolveMnemonic n token rest = .ok (.operation row.2.1 row.2.2 rest) ∧
        ∀ (c : Config) (l : Line), tokens l = token :: rest →
          (∀ i, validate c n row.2.1 row.2.2 rest = .ok i → readLine c n l = .instr i) ∧
          ∀ e, validate c n row.2.1 row.2.2 rest = .error e → readLine c n l = .error e) ∧
    (lower token ∉ [['h', 'l', 't'], ['a', 'd', 'i'], ['a', 'd', 'd'], ['a', 'd', 'd', 'p'], ['s', 'u', 'b'],
        ['s', 'u', 'b', 'p'], ['j', 'n', 'e'], ['j', 'n', 'e', 'p'], ['j', 'g'], ['j', 'g', 'p'], ['j', 'l'],
        ['j', 'l', 'p'], ['i', 'o', 'i'], ['i', 'o', 'i', 'p'], ['i', 'o', 'r'], ['i', 'o', 'r', 'p']] →
      resolveMnemonic n token rest = .error (.invalidInstruction token n) ∧
        ∀ (c : Config) (l : Line), tokens l = token :: rest → isBlankLine c l = false →
          readLine c n l = .error (.invalidInstruction token n))

/-- R90, R174: a line whose mnemonic is `adip` fails `InvalidInstruction` with the whole token as written, whatever and however
many tokens follow. That a capital `P` is the suffix too is R89's decision D13 (log 12). -/
def Obligations.AdipIsRefused : Prop :=
  ∀ (c : Config) (n : Nat) (l : Line) (token : Text) (rest : List Text), tokens l = token :: rest →
    lower token = ['a', 'd', 'i', 'p'] → readLine c n l = .error (.invalidInstruction token n)

/-- R92, R157 (letter case D12, conflict C3): a line whose mnemonic is `hlt` is that one instruction, whatever follows it. -/
def Obligations.HltLineIgnoresItsRest : Prop :=
  ∀ (c : Config) (n : Nat) (l : Line) (token : Text) (rest : List Text), tokens l = token :: rest →
    lower token = ['h', 'l', 't'] → readLine c n l = .instr .hlt ∧ encodeWith c .hlt = encodeWith c (.ioi .cpu 0)

/-- R95: the arity check comes before any field: fewer tokens than required is `LineTooShort`, more is `LineTooLong`, whatever
the tokens are. Immediate and MemoryAddress require 1, RegisterPair and IoOperation 2. So too for a whole line whose mnemonic
resolves to the opcode (R102). -/
def Obligations.ArityBeforeFields : Prop :=
  ∀ (c : Config) (n : Nat) (o : Opcode) (flag : Bool) (rest : List Text) (need : Nat),
    (need = match o.category with
      | .immediate => 1
      | .registerPair => 2
      | .memoryAddress => 1
      | .ioOperation => 2) →
    (rest.length < need → validate c n o flag rest = .error (.lineTooShort n) ∧
      ∀ (l : Line) (token : Text), tokens l = token :: rest →
        resolveMnemonic n token rest = .ok (.operation o flag rest) → readLine c n l = .error (.lineTooShort n)) ∧
    (need < rest.length → validate c n o flag rest = .error (.lineTooLong n) ∧
      ∀ (l : Line) (token : Text), tokens l = token :: rest →
        resolveMnemonic n token rest = .ok (.operation o flag rest) → readLine c n l = .error (.lineTooLong n))

/-- R97: an integer up to its field's maximum is accepted, 0 and the maximum included; a larger one is `IntegerTooLarge` with
the parsed value, the line, and the maximum of that field: 31, 16 or 7. -/
def Obligations.RangeIsCheckedAgainstTheFieldMaximum : Prop :=
  ∀ (c : Config) (n : Nat) (flag : Bool) (t u : Text) (v : Nat) (d : Device), unsignedOfToken c t = some v →
    deviceOfToken u = some d →
    (∀ h : v < 32, validate c n .adi flag [t] = .ok (.adi ⟨v, h⟩)) ∧
    (31 < v → validate c n .adi flag [t] = .error (.integerTooLarge v 31 n)) ∧
    (∀ h : v < 17, validate c n .jne flag [t] = .ok (.jne flag ⟨v, h⟩) ∧
      validate c n .jg flag [t] = .ok (.jg flag ⟨v, h⟩) ∧ validate c n .jl flag [t] = .ok (.jl flag ⟨v, h⟩)) ∧
    (16 < v → ∀ o ∈ [Opcode.jne, .jg, .jl], validate c n o flag [t] = .error (.integerTooLarge v 16 n)) ∧
    (∀ h : v < 8, validate c n .ioi flag [u, t] = .ok (.ioi d ⟨v, h⟩) ∧
      validate c n .ior flag [u, t] = .ok (.ior d ⟨v, h⟩)) ∧
    (7 < v → ∀ o ∈ [Opcode.ioi, .ior], validate c n o flag [u, t] = .error (.integerTooLarge v 7 n))

/-- R96, R177 (syntax D18, log 13; unbounded parser D19, log 9): a token of one or more ASCII digits is a number, its value is
its base-ten value, and every other token is `InvalidInteger` wherever an integer is read: the operand of `adi` and of the
three jumps, and the second operand of `ioi` and `ior` after a good device. -/
def Obligations.IntegersAreUnsignedDecimal : Prop :=
  ∀ c : Config, c.parseLimit = none →
    (∀ t : Text, t ≠ [] → (∀ ch ∈ t, '0' ≤ ch ∧ ch ≤ '9') →
      unsignedOfToken c t = some (t.foldl (fun acc ch => 10 * acc + (ch.toNat - '0'.toNat)) 0)) ∧
    (∀ t : Text, (t = [] ∨ ∃ ch ∈ t, ¬ ('0' ≤ ch ∧ ch ≤ '9')) → ∀ (n : Nat) (flag : Bool),
      (∀ max : Nat, integerOperand c max n t = .error (.invalidInteger t n)) ∧
      (∀ o ∈ [Opcode.adi, .jne, .jg, .jl], validate c n o flag [t] = .error (.invalidInteger t n)) ∧
      ∀ (u : Text) (d : Device), deviceOfToken u = some d →
        ∀ o ∈ [Opcode.ioi, .ior], validate c n o flag [u, t] = .error (.invalidInteger t n))

/-- R98: a register token is matched without regard to case; no match is `InvalidRegister` with the token and the line. -/
def Obligations.RegisterTokens : Prop :=
  ∀ (n : Nat) (t : Text),
    (lower t = ['r', 'a'] → registerOperand n t = .ok .ra) ∧ (lower t = ['r', 'b'] → registerOperand n t = .ok .rb) ∧
    (lower t = ['r', 'c'] → registerOperand n t = .ok .rc) ∧ (lower t = ['r', 'd'] → registerOperand n t = .ok .rd) ∧
    (lower t ∉ [['r', 'a'], ['r', 'b'], ['r', 'c'], ['r', 'd']] → registerOperand n t = .error (.invalidRegister t n))

/-- R99 (spellings D11): a device token is matched without regard to case; no match is `InvalidDevice` with the token and the
line. -/
def Obligations.DeviceTokens : Prop :=
  ∀ (n : Nat) (t : Text),
    (lower t = ['c', 'p', 'u'] → deviceOperand n t = .ok .cpu) ∧ (lower t = ['k', 'b', 'd'] → deviceOperand n t = .ok .kbd) ∧
    (lower t = ['s', 'c', 'r'] → deviceOperand n t = .ok .scr) ∧ (lower t = ['m', 't', 'h'] → deviceOperand n t = .ok .mth) ∧
    (lower t ∉ [['c', 'p', 'u'], ['k', 'b', 'd'], ['s', 'c', 'r'], ['m', 't', 'h']] →
      deviceOperand n t = .error (.invalidDevice t n))

/-- R102, R182 within a line (left to right, D20, log 13): the first operand's error is reported whatever the second is; when
the first is good, the second's is: `InvalidRegister` for the destination of `add` and `sub` (R130, R131), and for the function
of `ioi` and `ior` the integer's own error, `InvalidInteger` where the token is no number (R155, R156). -/
def Obligations.LeftmostBadOperandIsReported : Prop :=
  ∀ (c : Config) (n : Nat) (flag : Bool) (t u : Text),
    (∀ e, registerOperand n t = .error e →
      validate c n .add flag [t, u] = .error e ∧ validate c n .sub flag [t, u] = .error e) ∧
    (∀ e, deviceOperand n t = .error e →
      validate c n .ioi flag [t, u] = .error e ∧ validate c n .ior flag [t, u] = .error e) ∧
    (∀ r, registerOperand n t = .ok r → lower u ∉ [['r', 'a'], ['r', 'b'], ['r', 'c'], ['r', 'd']] →
      validate c n .add flag [t, u] = .error (.invalidRegister u n) ∧
        validate c n .sub flag [t, u] = .error (.invalidRegister u n)) ∧
    (∀ d, deviceOperand n t = .ok d →
      (∀ e, integerOperand c 7 n u = .error e →
        validate c n .ioi flag [t, u] = .error e ∧ validate c n .ior flag [t, u] = .error e) ∧
      (unsignedOfToken c u = none →
        validate c n .ioi flag [t, u] = .error (.invalidInteger u n) ∧
          validate c n .ior flag [t, u] = .error (.invalidInteger u n)))

/-- R100 (`ioip`, `iorp`: D14): the flag goes unchanged into the RegisterPair and MemoryAddress shapes and has no effect on
the Immediate and IoOperation shapes. -/
def Obligations.FlagIsThreadedOrDropped : Prop :=
  ∀ (c : Config) (n : Nat) (o : Opcode) (flag : Bool) (rest : List Text) (i : Instr),
    validate c n o flag rest = .ok i →
    i.opcode = o ∧ i.wellFormed = true ∧
    match i.data with
    | .immediate _ => validate c n o (!flag) rest = .ok i
    | .registerPair indirect _ _ => indirect = flag
    | .memoryAddress pointer _ => pointer = flag
    | .ioOperation _ _ => validate c n o (!flag) rest = .ok i

/-- R88, R9: two lines that differ in ASCII letter case only read as the same instruction; only ASCII letters are folded. That
`hlt` and the suffix `P` are matched without regard to case too is the spec's decisions D12 and D13 (conflict C3; log 12). -/
def Obligations.LetterCaseDoesNotMatter : Prop :=
  (∀ (c : Config) (n : Nat) (l l' : Line) (i : Instr), lower l = lower l' → readLine c n l = .instr i →
    readLine c n l' = .instr i) ∧
  (∀ ch : Char, ¬ ('A' ≤ ch ∧ ch ≤ 'Z') → lowerChar ch = ch) ∧
  ∀ ch : Char, 'A' ≤ ch → ch ≤ 'Z' → (lowerChar ch).toNat = ch.toNat + 32

/-- R86 (D15): the tokens of a line hold no space, and joined by single spaces they give the line back: every space separates,
empty tokens are kept. -/
def Obligations.TokensAreThePiecesBetweenSpaces : Prop :=
  ∀ l : Line, tokens l ≠ [] ∧ (∀ t ∈ tokens l, ' ' ∉ t) ∧ [' '].intercalate (tokens l) = l

/-- R85 (D16, log 11): a text is cut at its line feeds and nowhere else. A final line feed adds no line, a last piece with no
line feed after it is a line as it stands unless it is empty, and a carriage return right before a line feed stays or is
removed as the implementation does, one way for all lines; every other carriage return stays. -/
def Obligations.LinesAreSplitAtLineFeeds : Prop :=
  ∀ (c : Config) (ls : List Line) (last : Line), (∀ l ∈ ls, '\n' ∉ l) → '\n' ∉ last →
    splitLines c ((ls.flatMap fun l => l ++ ['\n']) ++ last) =
      (ls.map fun l => if l.getLast? = some '\r' ∧ c.stripsCr = true then l.dropLast else l) ++
        if last = [] then [] else [last]

/-- R94, R103: every instruction, in every operand form, address 16 and `hlt` included, is spelled by a line that reads as it. -/
def Obligations.SpelledInstructionReadsBack : Prop :=
  ∀ c : Config, c.ParsesSmall → ∀ (n : Nat) (i : Instr), readLine c n (spell i) = .instr i

/-! ### Whole runs -/

/-- R49, R40, R104: when a text assembles, the bytes are the encodings of the instructions of its lines, in source order, and
no line is in error. -/
def Obligations.BodyIsTheLinesInOrder : Prop :=
  ∀ (c : Config) (lines : List Line) (bytes : List Byte), assemble c lines = .ok bytes →
    bytes = (lines.zipIdx 1).filterMap (fun p => lineByte c (readLine c p.2 p.1)) ∧
    ∀ p ∈ lines.zipIdx 1, ∀ e, readLine c p.2 p.1 ≠ .error e

/-- R182 across lines: the error reported is that of the earliest failing line, and later lines do not matter. -/
def Obligations.FirstErrorWins : Prop :=
  ∀ (c : Config) (before after : List Line) (l : Line) (e : AsmError),
    (∀ p ∈ before.zipIdx 1, ∀ e', readLine c p.2 p.1 ≠ .error e') →
    readLine c (before.length + 1) l = .error e → assemble c (before ++ l :: after) = .error e

/-- The start of every run the host can invoke satisfies the run invariant; so does the reset state, whose output spaces are in
canonical form (R35, R201). That no source text is held and the phase is the start is the model's choice (log 1), and so are
the empty streams and the absent exit status (log 15). -/
def Obligations.InvokedRunMeetsTheInvariant : Prop :=
  RunInv State.reset ∧ memoriesWf State.reset = true ∧
  ∀ (args : List String) (f : FileRead) (w : Option IoCause), RunInv (State.invoke args f w)

/-- Every step keeps the run invariant: the body is the encoding of the program (R40, R45), the slot index counts it (R30),
the line counter is 1-based (R31), no pseudo-instruction is in the program (R92), nothing is kept outside the line-by-line
build (R31), and what can be seen fits the phase: no image before the commit, the whole image of a program after it, none after
an error (R50, R183, R187, R188). What the dropped fields are left at is the model's choice (log 17), and so are the empty
streams at the start that the whole-stream clauses begin from (log 15). -/
def Obligations.StepKeepsTheRunInvariant : Prop :=
  ∀ s t : State, RunInv s → step s = .next t → RunInv t

/-- Every step keeps both output spaces in canonical form, from every state that has them so. -/
def Obligations.StepKeepsMemoriesCanonical : Prop :=
  ∀ s t : State, memoriesWf s = true → step s = .next t → memoriesWf t = true

/-- R50: at no point of any run does an observer see anything but the complete image of the input text or no write at all, and a
run that ends in an error has no image and has dropped its bytes. That a failed write leaves no image is R50 read for failed
writes too (log 16); that the body and the program are left empty is the model's choice (log 17). -/
def Obligations.ImageIsAllOrNothing : Prop :=
  ∀ (args : List String) (f : FileRead) (w : Option IoCause) (k : Nat) (t : State),
    core.run k (State.invoke args f w) = .next t →
    (t.image = none ∨ (t.phase = .succeeded ∧ t.error = none ∧ ∃ text bytes, f = .text text ∧
      assemble pactConfig (splitLines pactConfig text) = .ok bytes ∧
      t.image = some (Memory.ofBytes 0 (pactConfig.magicBytes ++ bytes)))) ∧
    (∀ e, t.error = some e → t.image = none ∧ t.out = [] ∧ t.program = [])

/-- R104, R41, R50, R183, R187, R206: a whole run is the spec's pseudocode. For every text, line by line, a run invoked on it
ends after as many steps as it has lines and two more, and then shows exactly what `assemble` says: its error, or the image of
the header and its bytes, or the error of the final write. How many steps a run has is the model's choice (logs 2 and 3), and
so are the empty streams the run begins with (log 15) and that a failed write leaves no image (log 16). -/
def Obligations.RunIsAssembleThenWrite : Prop :=
  ∀ (src dst : String) (text : Text) (w : Option IoCause) (k : Nat),
    (splitLines pactConfig text).length + 2 ≤ k →
    ∃ t, core.run k (State.invoke [src, dst] (.text text) w) = .next t ∧ ended t = true ∧
      match assemble pactConfig (splitLines pactConfig text), w with
      | .error e, _ =>
        t.error = some e ∧ t.image = none ∧ t.exitStatus = some 1 ∧ t.stdout = [] ∧
          ∃ message, t.stderr = ["failed to parse file: " ++ message]
      | .ok bytes, none =>
        t.error = none ∧ t.image = some (Memory.ofBytes 0 (pactConfig.magicBytes ++ bytes)) ∧ t.exitStatus = some 0 ∧
          t.stderr = [] ∧
          t.stdout = ["wrote " ++ toString (pactConfig.magicBytes.length + bytes.length) ++ " bytes to " ++ dst]
      | .ok _, some cause =>
        t.error = some (.ioError cause) ∧ t.image = none ∧ t.exitStatus = some 1 ∧ t.stdout = [] ∧
          ∃ message, t.stderr = ["failed to write to file '" ++ dst ++ "': " ++ message]

/-- Every step answers a next state, from every state: no fault and no refusal (R170). That an error of the text is a next state
is the model's reading (log 4), and that a run that has ended answers one too is its choice (log 3). -/
def Obligations.EveryStepAnswersANextState : Prop :=
  ∀ s : State, ∃ t, step s = .next t

/-- R181, R186: the inputs the host supplies are read at the two boundary operations only, and no step changes them. The file
to read is looked at by the start alone; whether the write fails, by the commit alone; and a step that is neither reads none of
the three fields: with other inputs it does the same and keeps those. The three fields are the model's arrangement (logs 1
and 16). -/
def Obligations.StepKeepsTheHostInputs : Prop :=
  ∀ s t : State, step s = .next t →
    (t.args = s.args ∧ t.inputFile = s.inputFile ∧ t.writeFailure = s.writeFailure) ∧
    (s.phase ≠ .start → ∀ f : FileRead, step { s with inputFile := f } = .next { t with inputFile := f }) ∧
    ((s.phase ≠ .assembling ∨ fetchLine s ≠ none) → ∀ w : Option IoCause,
      step { s with writeFailure := w } = .next { t with writeFailure := w }) ∧
    (s.phase ≠ .start → (s.phase ≠ .assembling ∨ fetchLine s ≠ none) →
      ∀ (args : List String) (f : FileRead) (w : Option IoCause),
        step { s with args := args, inputFile := f, writeFailure := w } =
          .next { t with args := args, inputFile := f, writeFailure := w })

/-- R102, R104: a blank line is skipped; a line that is not blank is the Resolver's error, or `hlt`, or exactly what the
Validator answers on the tokens after the mnemonic, its error or its instruction. And which lines are blank (R87): those of
blank characters only, the empty line included. Among ASCII characters space, tab, line feed, vertical tab, form feed and
carriage return are blank and no other is, beyond ASCII the open parameter decides: decision D17 (log 10). -/
def Obligations.LineIsResolverThenValidator : Prop :=
  ∀ (c : Config) (n : Nat) (l : Line),
    (isBlankLine c l = true ↔ ∀ ch ∈ l, isBlankChar c ch = true) ∧ isBlankLine c [] = true ∧
    (∀ ch : Char, ch.toNat < 128 →
      (isBlankChar c ch = true ↔ ch ∈ [' ', '\t', '\n', Char.ofNat 0x0B, Char.ofNat 0x0C, '\r'])) ∧
    (∀ ch : Char, 128 ≤ ch.toNat → isBlankChar c ch = c.isBlankBeyondAscii ch) ∧
    (isBlankLine c l = true → readLine c n l = .blank) ∧
    (isBlankLine c l = false → ∃ token rest, tokens l = token :: rest ∧
      match resolveMnemonic n token rest with
      | .error e => readLine c n l = .error e
      | .ok .halt => readLine c n l = .instr .hlt
      | .ok (.operation o flag operands) => operands = rest ∧
        match validate c n o flag rest with
        | .error e => readLine c n l = .error e
        | .ok i => readLine c n l = .instr i)

/-- R31: what a run keeps is held for the line-by-line build only. The step that ends the build, in an image or in the write's
error, drops the source text, the line counter, the program, the slot index and the bytes, from every state; and no run the
host invokes holds any of it once it has ended, however it ended. What the dropped fields are left at is the model's choice
(log 17), and that an ended run is stepped at all too (log 3). -/
def Obligations.EndOfTheRunDropsWhatItKept : Prop :=
  (∀ s : State, s.phase = .assembling → fetchLine s = none → ∃ t, step s = .next t ∧ ended t = true ∧
    t.source = [] ∧ t.lineNo = 1 ∧ t.program = [] ∧ t.slot = 0 ∧ t.out = []) ∧
  ∀ (args : List String) (f : FileRead) (w : Option IoCause) (k : Nat) (t : State),
    core.run k (State.invoke args f w) = .next t → ended t = true →
      t.source = [] ∧ t.lineNo = 1 ∧ t.program = [] ∧ t.slot = 0 ∧ t.out = []

/-- R205, R206: no endless run. From every state, whatever the phase, the inputs and the text, finitely many steps reach a state
in which the run has ended (what one step is: log 2; that errors and ended runs are next states: logs 3 and 4). -/
def Obligations.EveryRunEnds : Prop :=
  ∀ s : State, ∃ (k : Nat) (t : State), core.run k s = .next t ∧ ended t = true
end

