-- ==== Sys2Proof/Laws/Encoding.lean ====
section
/-! SUPPORT. The byte formulas of the instruction rules against the concatenations of the encode function, and the inverse
code maps. -/

namespace Sys2Proof.Machine

/-! ### Shifts and ors are concatenations: the fields occupy disjoint bits (R7) -/

theorem immediateByte_eq (c : Config) (o : Opcode) (v : Imm5) :
    immediateByte c o v = instructionByte c o (payloadImmediate v) := by
  have h : BitVec.ofNat 8 v.val = (BitVec.ofNat 5 v.val).setWidth 8 := by
    apply BitVec.eq_of_toNat_eq
    have := v.isLt
    simp only [BitVec.toNat_ofNat, BitVec.toNat_setWidth]
    omega
  simp only [immediateByte, opcodeBits, instructionByte, payloadImmediate, h]
  generalize c.opcodeCode o = x
  generalize BitVec.ofNat 5 v.val = y
  revert x y
  decide

theorem registerPairByte_eq (c : Config) (o : Opcode) (f : Bool) (s d : Register) :
    registerPairByte c o f s d = instructionByte c o (payloadRegisterPair c f s d) := by
  simp only [registerPairByte, opcodeBits, instructionByte, payloadRegisterPair]
  generalize c.opcodeCode o = x
  generalize boolBit c f = y
  generalize c.registerCode s = z
  generalize c.registerCode d = w
  revert x y z w
  decide

theorem memoryAddressByte_eq (c : Config) (o : Opcode) (f : Bool) (a : Addr17) :
    memoryAddressByte c o f a = instructionByte c o (payloadMemoryAddress c f a) := by
  by_cases ha : a.val ≤ 15
  · have h : BitVec.ofNat 8 a.val = (BitVec.ofNat 4 a.val).setWidth 8 := by
      apply BitVec.eq_of_toNat_eq
      simp only [BitVec.toNat_ofNat, BitVec.toNat_setWidth]
      omega
    simp only [memoryAddressByte, opcodeBits, instructionByte, payloadMemoryAddress, ha, if_true, h]
    generalize c.opcodeCode o = x
    generalize boolBit c f = y
    generalize BitVec.ofNat 4 a.val = z
    revert x y z
    decide
  · simp only [memoryAddressByte, opcodeBits, instructionByte, payloadMemoryAddress, ha, if_false]
    generalize c.opcodeCode o = x
    generalize c.addr16Low5 f = y
    revert x y
    decide

theorem ioByte_eq (c : Config) (o : Opcode) (v : Device) (f : U3) :
    ioByte c o v f = instructionByte c o (payloadIo c v f) := by
  have h : BitVec.ofNat 8 f.val = (BitVec.ofNat 3 f.val).setWidth 8 := by
    apply BitVec.eq_of_toNat_eq
    have := f.isLt
    simp only [BitVec.toNat_ofNat, BitVec.toNat_setWidth]
    omega
  simp only [ioByte, opcodeBits, instructionByte, payloadIo, h]
  generalize c.opcodeCode o = x
  generalize c.deviceCode v = y
  generalize BitVec.ofNat 3 f.val = z
  revert x y z
  decide

/-! ### The fields of an instruction byte -/

@[simp] theorem instructionByte_opcode (c : Config) (o : Opcode) (p : BitVec 5) :
    (instructionByte c o p).extractLsb' 5 3 = c.opcodeCode o := by
  simp only [instructionByte]
  generalize c.opcodeCode o = x
  revert x p
  decide

@[simp] theorem instructionByte_payload (c : Config) (o : Opcode) (p : BitVec 5) :
    (instructionByte c o p).extractLsb' 0 5 = p := by
  simp only [instructionByte]
  generalize c.opcodeCode o = x
  revert x p
  decide

/-- An instruction byte as a number (R71: the `|` may be read as `+`). -/
theorem instructionByte_toNat (c : Config) (o : Opcode) (p : BitVec 5) :
    (instructionByte c o p).toNat = 32 * (c.opcodeCode o).toNat + p.toNat := by
  simp only [instructionByte]
  generalize c.opcodeCode o = x
  revert x p
  decide

/-- Equal bytes have equal codes and payloads. -/
theorem instructionByte_inj {c : Config} {o o' : Opcode} {p p' : BitVec 5}
    (h : instructionByte c o p = instructionByte c o' p') : c.opcodeCode o = c.opcodeCode o' ∧ p = p' := by
  have h1 := congrArg (fun b => BitVec.extractLsb' 5 3 b) h
  have h2 := congrArg (fun b => BitVec.extractLsb' 0 5 b) h
  simpa using And.intro h1 h2

/-! ### The inverse code maps under unique codes -/

theorem find_code {α : Type} {w : Nat} (f : α → BitVec w) (hf : ∀ a b, f a = f b → a = b) (l : List α) (a : α)
    (ha : a ∈ l) : (l.find? fun x => f x == f a) = some a := by
  induction l with
  | nil => simp at ha
  | cons x l ih =>
    by_cases hx : f x = f a
    · have := hf _ _ hx
      subst this
      simp
    · have hne : x ≠ a := fun e => hx (by rw [e])
      have : a ∈ l := by simpa [Ne.symm hne] using ha
      simp [hx, ih this]

theorem opcodeOfCode_code {c : Config} (hc : c.UniqueCodes) (o : Opcode) :
    opcodeOfCode c (c.opcodeCode o) = some o :=
  find_code c.opcodeCode hc.opcode allOpcodes o (by cases o <;> decide)

theorem registerOfCode_code {c : Config} (hc : c.UniqueCodes) (r : Register) :
    registerOfCode c (c.registerCode r) = some r :=
  find_code c.registerCode hc.register allRegisters r (by cases r <;> decide)

theorem deviceOfCode_code {c : Config} (hc : c.UniqueCodes) (d : Device) :
    deviceOfCode c (c.deviceCode d) = some d :=
  find_code c.deviceCode hc.device allDevices d (by cases d <;> decide)

/-- The flag is recovered from its bit under either polarity. -/
@[simp] theorem flagOfBit_boolBit (c : Config) (f : Bool) : flagOfBit c (boolBit c f) = f := by
  unfold flagOfBit boolBit
  cases c.flagOneIsTrue <;> cases f <;> decide

/-- Every bit is the bit of its flag under either polarity. -/
@[simp] theorem boolBit_flagOfBit (c : Config) (b : BitVec 1) : boolBit c (flagOfBit c b) = b := by
  unfold flagOfBit boolBit
  cases c.flagOneIsTrue <;> revert b <;> decide

end Sys2Proof.Machine
end

