-- ==== Sys2Proof/Laws/FrontEnd.lean ====
section
/-! SUPPORT. One lemma for each operation of the front end that says everything it can answer. -/

namespace Sys2Proof.Machine

/-! ### Characters -/

theorem toNat_ofNat_small (n : Nat) (h : n < 256) : (Char.ofNat n).toNat = n := by
  have hv : n.isValidChar := .inl (by omega)
  simp [Char.ofNat, hv, Char.toNat, Char.ofNatAux]

/-- What folding does to a character code. -/
theorem lowerChar_toNat (ch : Char) :
    (lowerChar ch).toNat = if 65 ≤ ch.toNat ∧ ch.toNat ≤ 90 then ch.toNat + 32 else ch.toNat := by
  unfold lowerChar
  split
  · exact toNat_ofNat_small _ (by omega)
  · rfl

/-- The order of characters is the order of their codes. -/
theorem char_le_iff (a b : Char) : a ≤ b ↔ a.toNat ≤ b.toNat := by
  rw [Char.le_def, UInt32.le_iff_toNat_le]
  rfl

@[simp] theorem lower_nil : lower [] = [] := rfl

@[simp] theorem lower_cons (ch : Char) (t : Text) : lower (ch :: t) = lowerChar ch :: lower t := rfl

/-! ### Lines and tokens -/

/-- There is always at least one piece. -/
theorem splitOn_ne_nil (sep : Char) (l : Text) : splitOn sep l ≠ [] := by
  cases l with
  | nil => simp [splitOn]
  | cons a l =>
    unfold splitOn
    split
    · simp
    · split <;> simp

/-- A line is blank when all its characters are. -/
theorem isBlankLine_iff (c : Config) (l : Line) : isBlankLine c l = true ↔ ∀ ch ∈ l, isBlankChar c ch = true :=
  List.all_eq_true

/-- One character that is ASCII and not blank makes a line not blank, whatever is blank beyond ASCII. -/
theorem isBlankLine_false (c : Config) (l : Line) (ch : Char) (hm : ch ∈ l) (ha : ch.toNat < 128)
    (hb : isAsciiBlank ch = false) : isBlankLine c l = false := by
  rw [isBlankLine, List.all_eq_false]
  exact ⟨ch, hm, by simp [isBlankChar, ha, hb]⟩

/-! ### The suffix -/

/-- Stripping takes one trailing `p`, or nothing. -/
theorem stripSuffix_cases (t : Text) :
    (∃ stem, t = stem ++ ['p'] ∧ stripSuffix t = (stem, true)) ∨ (t.getLast? ≠ some 'p' ∧ stripSuffix t = (t, false)) := by
  unfold stripSuffix
  by_cases h : t.getLast? = some 'p'
  · obtain ⟨stem, rfl⟩ := List.getLast?_eq_some_iff.1 h
    exact .inl ⟨stem, rfl, by simp⟩
  · exact .inr ⟨h, by simp [h]⟩

/-! ### Operands -/

/-- An integer operand is no number, or in range, or too large. -/
theorem integerOperand_cases (c : Config) (max n : Nat) (t : Text) :
    (unsignedOfToken c t = none ∧ integerOperand c max n t = .error (.invalidInteger t n)) ∨
      (∃ v, ∃ h : v < max + 1, unsignedOfToken c t = some v ∧ integerOperand c max n t = .ok ⟨v, h⟩) ∨
      ∃ v, max < v ∧ unsignedOfToken c t = some v ∧ integerOperand c max n t = .error (.integerTooLarge v max n) := by
  unfold integerOperand
  cases unsignedOfToken c t with
  | none => exact .inl ⟨rfl, rfl⟩
  | some v =>
    by_cases h : v < max + 1
    · exact .inr (.inl ⟨v, h, rfl, by simp [h]⟩)
    · exact .inr (.inr ⟨v, by omega, rfl, by simp [h]⟩)

theorem registerOperand_cases (n : Nat) (t : Text) :
    (∃ r, registerOfToken t = some r ∧ registerOperand n t = .ok r) ∨
      (registerOfToken t = none ∧ registerOperand n t = .error (.invalidRegister t n)) := by
  unfold registerOperand
  cases registerOfToken t with
  | none => exact .inr ⟨rfl, rfl⟩
  | some r => exact .inl ⟨r, rfl, rfl⟩

theorem deviceOperand_cases (n : Nat) (t : Text) :
    (∃ d, deviceOfToken t = some d ∧ deviceOperand n t = .ok d) ∨
      (deviceOfToken t = none ∧ deviceOperand n t = .error (.invalidDevice t n)) := by
  unfold deviceOperand
  cases deviceOfToken t with
  | none => exact .inr ⟨rfl, rfl⟩
  | some d => exact .inl ⟨d, rfl, rfl⟩

theorem oneOperand_cases (n : Nat) (rest : List Text) (field : Text → Except AsmError Instr) :
    (rest.length < 1 ∧ oneOperand n rest field = .error (.lineTooShort n)) ∨
      (∃ t, rest = [t] ∧ oneOperand n rest field = field t) ∨
      (1 < rest.length ∧ oneOperand n rest field = .error (.lineTooLong n)) := by
  rcases rest with _ | ⟨t, _ | ⟨u, r⟩⟩
  · exact .inl ⟨by simp, rfl⟩
  · exact .inr (.inl ⟨t, rfl, rfl⟩)
  · exact .inr (.inr ⟨by simp, rfl⟩)

theorem twoOperands_cases (n : Nat) (rest : List Text) (fields : Text → Text → Except AsmError Instr) :
    (rest.length < 2 ∧ twoOperands n rest fields = .error (.lineTooShort n)) ∨
      (∃ t u, rest = [t, u] ∧ twoOperands n rest fields = fields t u) ∨
      (2 < rest.length ∧ twoOperands n rest fields = .error (.lineTooLong n)) := by
  rcases rest with _ | ⟨t, _ | ⟨u, _ | ⟨v, r⟩⟩⟩
  · exact .inl ⟨by simp, rfl⟩
  · exact .inl ⟨by simp, rfl⟩
  · exact .inr (.inl ⟨t, u, rfl, rfl⟩)
  · exact .inr (.inr ⟨by simp, rfl⟩)

theorem immediateFields_ok (c : Config) (n : Nat) (mk : Imm5 → Instr) (t : Text) (i : Instr) :
    immediateFields c n mk t = .ok i ↔ ∃ v, integerOperand c 31 n t = .ok v ∧ mk v = i := by
  unfold immediateFields
  cases integerOperand c 31 n t <;> simp

theorem memoryAddressFields_ok (c : Config) (n : Nat) (mk : Addr17 → Instr) (t : Text) (i : Instr) :
    memoryAddressFields c n mk t = .ok i ↔ ∃ a, integerOperand c 16 n t = .ok a ∧ mk a = i := by
  unfold memoryAddressFields
  cases integerOperand c 16 n t <;> simp

theorem registerPairFields_ok (n : Nat) (mk : Register → Register → Instr) (t u : Text) (i : Instr) :
    registerPairFields n mk t u = .ok i ↔
      ∃ s d, registerOperand n t = .ok s ∧ registerOperand n u = .ok d ∧ mk s d = i := by
  unfold registerPairFields
  cases registerOperand n t <;> cases registerOperand n u <;> simp

theorem ioFields_ok (c : Config) (n : Nat) (mk : Device → U3 → Instr) (t u : Text) (i : Instr) :
    ioFields c n mk t u = .ok i ↔
      ∃ d f, deviceOperand n t = .ok d ∧ integerOperand c 7 n u = .ok f ∧ mk d f = i := by
  unfold ioFields
  cases deviceOperand n t <;> cases integerOperand c 7 n u <;> simp

/-! ### The Resolver and the whole line -/

/-- The Resolver answers `hlt`, an opcode with its flag, or `InvalidInstruction` with the token as written. -/
theorem resolveMnemonic_cases (n : Nat) (token : Text) (rest : List Text) :
    (lower token = ['h', 'l', 't'] ∧ resolveMnemonic n token rest = .ok .halt) ∨
      (∃ o flag, opcodeOfName (stripSuffix (lower token)).1 = some o ∧ (stripSuffix (lower token)).2 = flag ∧
        resolveMnemonic n token rest = .ok (.operation o flag rest)) ∨
      resolveMnemonic n token rest = .error (.invalidInstruction token n) := by
  unfold resolveMnemonic
  split
  · exact .inl ⟨by assumption, rfl⟩
  · refine .inr ?_
    rcases stripSuffix (lower token) with ⟨stem, flag⟩
    simp only
    split
    · exact .inr rfl
    · cases ho : opcodeOfName stem with
      | none => exact .inr rfl
      | some o => exact .inl ⟨o, flag, rfl, rfl, rfl⟩

/-- A line is blank, or fails in the Resolver, or is `hlt`, or goes to the Validator. -/
theorem readLine_cases (c : Config) (n : Nat) (l : Line) :
    (isBlankLine c l = true ∧ readLine c n l = .blank) ∨
      (isBlankLine c l = false ∧
        ((∃ e, resolve n (tokens l) = .error e ∧ readLine c n l = .error e) ∨
          (resolve n (tokens l) = .ok .halt ∧ readLine c n l = .instr .hlt) ∨
          ∃ o flag rest, resolve n (tokens l) = .ok (.operation o flag rest) ∧
            ((∃ i, validate c n o flag rest = .ok i ∧ readLine c n l = .instr i) ∨
              ∃ e, validate c n o flag rest = .error e ∧ readLine c n l = .error e))) := by
  unfold readLine
  cases isBlankLine c l with
  | true => exact .inl ⟨rfl, rfl⟩
  | false =>
    refine .inr ⟨rfl, ?_⟩
    rcases resolve n (tokens l) with e | (_ | ⟨o, flag, rest⟩)
    · exact .inl ⟨e, rfl, rfl⟩
    · exact .inr (.inl ⟨rfl, rfl⟩)
    · refine .inr (.inr ⟨o, flag, rest, rfl, ?_⟩)
      rcases hv : validate c n o flag rest with e | i
      · exact .inr ⟨e, rfl, by simp [hv]⟩
      · exact .inl ⟨i, rfl, by simp [hv]⟩

end Sys2Proof.Machine
end

