-- ==== Sys2Proof/Laws/Memory.lean ====
section
/-! SUPPORT. The laws of the output spaces: read after write, the canonical form kept by every operation, and what the
dense spaces of the program body and the file image hold. -/

namespace Sys2Proof.Machine

/-! ### Read after write -/

@[simp] theorem Memory.read_nil (a : Nat) : Memory.read [] a = none := rfl

theorem Memory.read_write_same (m : Memory) (a : Nat) (v : Byte) :
    Memory.read (Memory.write m a v) a = some v := by
  induction m with
  | nil => simp [Memory.write, Memory.read]
  | cons cell m ih =>
    obtain ⟨b, w⟩ := cell
    by_cases h1 : a < b
    · simp [Memory.write, Memory.read, h1]
    · by_cases h2 : a = b
      · simp [Memory.write, Memory.read, h2]
      · simp [Memory.write, Memory.read, h1, h2, ih]

theorem Memory.read_write_other (m : Memory) (a b : Nat) (v : Byte) (h : b ≠ a) :
    Memory.read (Memory.write m a v) b = Memory.read m b := by
  induction m with
  | nil => simp [Memory.write, Memory.read, h]
  | cons cell m ih =>
    obtain ⟨k, w⟩ := cell
    by_cases h1 : a < k
    · simp [Memory.write, Memory.read, h1, h]
    · by_cases h2 : a = k
      · subst h2
        simp [Memory.write, Memory.read, h]
      · by_cases h3 : b = k
        · simp [Memory.write, Memory.read, h1, h2, h3]
        · simp [Memory.write, Memory.read, h1, h2, h3, ih]

/-! ### The canonical form -/

theorem Memory.risesFrom_mono {lo hi : Nat} (h : lo ≤ hi) (m : Memory) (hm : Memory.risesFrom hi m = true) :
    Memory.risesFrom lo m = true := by
  cases m with
  | nil => rfl
  | cons cell m =>
    obtain ⟨a, v⟩ := cell
    simp only [Memory.risesFrom, Bool.and_eq_true, decide_eq_true_eq] at hm ⊢
    exact ⟨by omega, hm.2⟩

theorem Memory.risesFrom_write (m : Memory) (lo a : Nat) (v : Byte) (ha : lo ≤ a)
    (hm : Memory.risesFrom lo m = true) : Memory.risesFrom lo (Memory.write m a v) = true := by
  induction m generalizing lo with
  | nil => simp [Memory.write, Memory.risesFrom, ha]
  | cons cell m ih =>
    obtain ⟨b, w⟩ := cell
    simp only [Memory.risesFrom, Bool.and_eq_true, decide_eq_true_eq] at hm
    by_cases h1 : a < b
    · simp only [Memory.write, h1, if_true, Memory.risesFrom, Bool.and_eq_true, decide_eq_true_eq]
      exact ⟨ha, by omega, hm.2⟩
    · by_cases h2 : a = b
      · subst h2
        simp only [Memory.write, lt_irrefl, if_false, if_true, Memory.risesFrom, Bool.and_eq_true,
          decide_eq_true_eq]
        exact ⟨ha, hm.2⟩
      · simp only [Memory.write, h1, h2, if_false, Memory.risesFrom, Bool.and_eq_true, decide_eq_true_eq]
        exact ⟨hm.1, ih (b + 1) (by omega) hm.2⟩

/-- A write keeps the canonical form. -/
theorem Memory.wf_write (m : Memory) (a : Nat) (v : Byte) (hm : Memory.wf m = true) :
    Memory.wf (Memory.write m a v) = true :=
  Memory.risesFrom_write m 0 a v (Nat.zero_le a) hm

/-- Consecutive writes keep the canonical form. -/
theorem Memory.wf_writeBytes (m : Memory) (a : Nat) (vs : List Byte) (hm : Memory.wf m = true) :
    Memory.wf (Memory.writeBytes m a vs) = true := by
  induction vs generalizing m a with
  | nil => exact hm
  | cons v vs ih => exact ih _ _ (Memory.wf_write m a v hm)

theorem Memory.risesFrom_ofBytes (a : Nat) (vs : List Byte) : Memory.risesFrom a (Memory.ofBytes a vs) = true := by
  induction vs generalizing a with
  | nil => rfl
  | cons v vs ih => simp [Memory.ofBytes, Memory.risesFrom, ih]

/-- A dense space has the canonical form. -/
theorem Memory.wf_ofBytes (a : Nat) (vs : List Byte) : Memory.wf (Memory.ofBytes a vs) = true :=
  Memory.risesFrom_mono (Nat.zero_le a) _ (Memory.risesFrom_ofBytes a vs)

/-- Copying the body keeps the canonical form. -/
theorem wf_copyBody (out : Memory) (h n : Nat) (m : Memory) (hm : Memory.wf m = true) :
    Memory.wf (copyBody out h n m) = true := by
  induction n with
  | zero => exact hm
  | succ n ih =>
    simp only [copyBody]
    split
    · exact Memory.wf_write _ _ _ ih
    · exact ih

/-- The file image has the canonical form, whatever the state holds. -/
theorem wf_fileImage (c : Config) (s : State) : Memory.wf (fileImage c s) = true :=
  wf_copyBody _ _ _ _ (Memory.wf_writeBytes _ _ _ rfl)

/-! ### Dense spaces -/

theorem Memory.read_ofBytes (a k : Nat) (vs : List Byte) :
    Memory.read (Memory.ofBytes a vs) (a + k) = vs[k]? := by
  induction vs generalizing a k with
  | nil => simp [Memory.ofBytes]
  | cons v vs ih =>
    cases k with
    | zero => simp [Memory.ofBytes, Memory.read]
    | succ k =>
      have h : a + (k + 1) = a + 1 + k := by omega
      simp only [Memory.ofBytes, Memory.read, h, ih, List.getElem?_cons_succ]
      rw [if_neg (by omega)]

theorem Memory.write_ofBytes_end (a : Nat) (vs : List Byte) (v : Byte) :
    Memory.write (Memory.ofBytes a vs) (a + vs.length) v = Memory.ofBytes a (vs ++ [v]) := by
  induction vs generalizing a with
  | nil => rfl
  | cons w vs ih =>
    have h := ih (a + 1)
    have e : a + (vs.length + 1) = a + 1 + vs.length := by omega
    simp only [List.length_cons, e, Memory.ofBytes, Memory.write, List.cons_append, h]
    rw [if_neg (by omega), if_neg (by omega)]

theorem Memory.writeBytes_ofBytes (a : Nat) (us vs : List Byte) :
    Memory.writeBytes (Memory.ofBytes a us) (a + us.length) vs = Memory.ofBytes a (us ++ vs) := by
  induction vs generalizing us with
  | nil => simp [Memory.writeBytes]
  | cons v vs ih =>
    have h := ih (us ++ [v])
    simp only [List.length_append, List.length_cons, List.length_nil, List.append_assoc, List.cons_append,
      List.nil_append] at h
    simp only [Memory.writeBytes, Memory.write_ofBytes_end, Nat.add_assoc]
    simpa using h

/-- The header of the image: consecutive writes into an empty space give the dense space. -/
theorem Memory.writeBytes_nil (vs : List Byte) : Memory.writeBytes [] 0 vs = Memory.ofBytes 0 vs := by
  simpa [Memory.ofBytes] using Memory.writeBytes_ofBytes 0 [] vs

@[simp] theorem Memory.length_ofBytes (a : Nat) (vs : List Byte) : (Memory.ofBytes a vs).length = vs.length := by
  induction vs generalizing a with
  | nil => rfl
  | cons v vs ih => simp [Memory.ofBytes, ih]

/-! ### Copying the body -/

/-- Below the copied range nothing changes. -/
theorem read_copyBody_below (out : Memory) (h n : Nat) (m : Memory) (a : Nat) (ha : a < h) :
    Memory.read (copyBody out h n m) a = Memory.read m a := by
  induction n with
  | zero => rfl
  | succ n ih =>
    simp only [copyBody]
    split
    · rw [Memory.read_write_other _ _ _ _ (by omega), ih]
    · exact ih

/-- Above the copied range nothing changes. -/
theorem read_copyBody_above (out : Memory) (h n : Nat) (m : Memory) (a : Nat) (ha : h + n ≤ a) :
    Memory.read (copyBody out h n m) a = Memory.read m a := by
  induction n with
  | zero => rfl
  | succ n ih =>
    simp only [copyBody]
    split
    · rw [Memory.read_write_other _ _ _ _ (by omega), ih (by omega)]
    · exact ih (by omega)

/-- Inside the copied range the body's byte is found. -/
theorem read_copyBody_inside (out : Memory) (h n k : Nat) (m : Memory) (v : Byte) (hk : k < n)
    (hv : Memory.read out k = some v) : Memory.read (copyBody out h n m) (h + k) = some v := by
  induction n with
  | zero => omega
  | succ n ih =>
    simp only [copyBody]
    by_cases e : k = n
    · subst e
      rw [hv]
      exact Memory.read_write_same _ _ _
    · split
      · rw [Memory.read_write_other _ _ _ _ (by omega), ih (by omega)]
      · exact ih (by omega)

/-- Copying a dense body behind a dense header gives the dense space of both. -/
theorem copyBody_ofBytes (us vs : List Byte) (n : Nat) (hn : n ≤ vs.length) :
    copyBody (Memory.ofBytes 0 vs) us.length n (Memory.ofBytes 0 us) = Memory.ofBytes 0 (us ++ vs.take n) := by
  induction n with
  | zero => simp [copyBody]
  | succ n ih =>
    have hlt : n < vs.length := by omega
    have hread : Memory.read (Memory.ofBytes 0 vs) n = some vs[n] := by
      have := Memory.read_ofBytes 0 n vs
      simpa [List.getElem?_eq_getElem hlt] using this
    have hlen : us.length + n = 0 + (us ++ vs.take n).length := by
      simp [List.length_take, Nat.min_eq_left (Nat.le_of_lt hlt)]
    simp only [copyBody, hread]
    rw [ih (by omega), hlen, Memory.write_ofBytes_end, List.append_assoc, List.take_append_getElem hlt]

end Sys2Proof.Machine
end

