-- ==== Sys2Proof/Laws/State.lean ====
section
/-! SUPPORT. One lemma per field and update of the state, each true by unfolding, so that no later proof unfolds a record
update. -/

namespace Sys2Proof.Machine

/-! ### emit -/

@[simp] theorem emit_phase (q : Byte) (i : Instr) (s : State) : (emit q i s).phase = s.phase := rfl
@[simp] theorem emit_args (q : Byte) (i : Instr) (s : State) : (emit q i s).args = s.args := rfl
@[simp] theorem emit_inputFile (q : Byte) (i : Instr) (s : State) : (emit q i s).inputFile = s.inputFile := rfl
@[simp] theorem emit_writeFailure (q : Byte) (i : Instr) (s : State) : (emit q i s).writeFailure = s.writeFailure := rfl
@[simp] theorem emit_source (q : Byte) (i : Instr) (s : State) : (emit q i s).source = s.source := rfl
@[simp] theorem emit_lineNo (q : Byte) (i : Instr) (s : State) : (emit q i s).lineNo = s.lineNo := rfl
@[simp] theorem emit_program (q : Byte) (i : Instr) (s : State) : (emit q i s).program = s.program ++ [i] := rfl
@[simp] theorem emit_slot (q : Byte) (i : Instr) (s : State) : (emit q i s).slot = s.slot + 1 := rfl
@[simp] theorem emit_out (q : Byte) (i : Instr) (s : State) : (emit q i s).out = Memory.write s.out s.slot q := rfl
@[simp] theorem emit_image (q : Byte) (i : Instr) (s : State) : (emit q i s).image = s.image := rfl
@[simp] theorem emit_error (q : Byte) (i : Instr) (s : State) : (emit q i s).error = s.error := rfl
@[simp] theorem emit_stdout (q : Byte) (i : Instr) (s : State) : (emit q i s).stdout = s.stdout := rfl
@[simp] theorem emit_stderr (q : Byte) (i : Instr) (s : State) : (emit q i s).stderr = s.stderr := rfl
@[simp] theorem emit_exitStatus (q : Byte) (i : Instr) (s : State) : (emit q i s).exitStatus = s.exitStatus := rfl
@[simp] theorem emit_draws (q : Byte) (i : Instr) (s : State) : (emit q i s).draws = s.draws := rfl

/-! ### advanceLine -/

@[simp] theorem advanceLine_phase (s : State) : (advanceLine s).phase = s.phase := rfl
@[simp] theorem advanceLine_args (s : State) : (advanceLine s).args = s.args := rfl
@[simp] theorem advanceLine_inputFile (s : State) : (advanceLine s).inputFile = s.inputFile := rfl
@[simp] theorem advanceLine_writeFailure (s : State) : (advanceLine s).writeFailure = s.writeFailure := rfl
@[simp] theorem advanceLine_source (s : State) : (advanceLine s).source = s.source := rfl
@[simp] theorem advanceLine_lineNo (s : State) : (advanceLine s).lineNo = s.lineNo + 1 := rfl
@[simp] theorem advanceLine_program (s : State) : (advanceLine s).program = s.program := rfl
@[simp] theorem advanceLine_slot (s : State) : (advanceLine s).slot = s.slot := rfl
@[simp] theorem advanceLine_out (s : State) : (advanceLine s).out = s.out := rfl
@[simp] theorem advanceLine_image (s : State) : (advanceLine s).image = s.image := rfl
@[simp] theorem advanceLine_error (s : State) : (advanceLine s).error = s.error := rfl
@[simp] theorem advanceLine_stdout (s : State) : (advanceLine s).stdout = s.stdout := rfl
@[simp] theorem advanceLine_stderr (s : State) : (advanceLine s).stderr = s.stderr := rfl
@[simp] theorem advanceLine_exitStatus (s : State) : (advanceLine s).exitStatus = s.exitStatus := rfl
@[simp] theorem advanceLine_draws (s : State) : (advanceLine s).draws = s.draws := rfl

/-! ### dropTransient -/

@[simp] theorem dropTransient_phase (s : State) : (dropTransient s).phase = s.phase := rfl
@[simp] theorem dropTransient_args (s : State) : (dropTransient s).args = s.args := rfl
@[simp] theorem dropTransient_inputFile (s : State) : (dropTransient s).inputFile = s.inputFile := rfl
@[simp] theorem dropTransient_writeFailure (s : State) : (dropTransient s).writeFailure = s.writeFailure := rfl
@[simp] theorem dropTransient_source (s : State) : (dropTransient s).source = [] := rfl
@[simp] theorem dropTransient_lineNo (s : State) : (dropTransient s).lineNo = 1 := rfl
@[simp] theorem dropTransient_program (s : State) : (dropTransient s).program = [] := rfl
@[simp] theorem dropTransient_slot (s : State) : (dropTransient s).slot = 0 := rfl
@[simp] theorem dropTransient_out (s : State) : (dropTransient s).out = [] := rfl
@[simp] theorem dropTransient_image (s : State) : (dropTransient s).image = s.image := rfl
@[simp] theorem dropTransient_error (s : State) : (dropTransient s).error = s.error := rfl
@[simp] theorem dropTransient_stdout (s : State) : (dropTransient s).stdout = s.stdout := rfl
@[simp] theorem dropTransient_stderr (s : State) : (dropTransient s).stderr = s.stderr := rfl
@[simp] theorem dropTransient_exitStatus (s : State) : (dropTransient s).exitStatus = s.exitStatus := rfl
@[simp] theorem dropTransient_draws (s : State) : (dropTransient s).draws = s.draws := rfl

/-! ### abort -/

@[simp] theorem abort_phase (e : AsmError) (d : String) (s : State) : (abort e d s).phase = .failed := rfl
@[simp] theorem abort_args (e : AsmError) (d : String) (s : State) : (abort e d s).args = s.args := rfl
@[simp] theorem abort_inputFile (e : AsmError) (d : String) (s : State) : (abort e d s).inputFile = s.inputFile := rfl
@[simp] theorem abort_writeFailure (e : AsmError) (d : String) (s : State) : (abort e d s).writeFailure = s.writeFailure := rfl
@[simp] theorem abort_source (e : AsmError) (d : String) (s : State) : (abort e d s).source = [] := rfl
@[simp] theorem abort_lineNo (e : AsmError) (d : String) (s : State) : (abort e d s).lineNo = 1 := rfl
@[simp] theorem abort_program (e : AsmError) (d : String) (s : State) : (abort e d s).program = [] := rfl
@[simp] theorem abort_slot (e : AsmError) (d : String) (s : State) : (abort e d s).slot = 0 := rfl
@[simp] theorem abort_out (e : AsmError) (d : String) (s : State) : (abort e d s).out = [] := rfl
@[simp] theorem abort_image (e : AsmError) (d : String) (s : State) : (abort e d s).image = none := rfl
@[simp] theorem abort_error (e : AsmError) (d : String) (s : State) : (abort e d s).error = some e := rfl
@[simp] theorem abort_stdout (e : AsmError) (d : String) (s : State) : (abort e d s).stdout = s.stdout := rfl
@[simp] theorem abort_stderr (e : AsmError) (d : String) (s : State) : (abort e d s).stderr = s.stderr ++ [d] := rfl
@[simp] theorem abort_exitStatus (e : AsmError) (d : String) (s : State) : (abort e d s).exitStatus = some 1 := rfl
@[simp] theorem abort_draws (e : AsmError) (d : String) (s : State) : (abort e d s).draws = s.draws + 1 := rfl

/-! ### succeed -/

@[simp] theorem succeed_phase (c : Config) (s : State) : (succeed c s).phase = .succeeded := rfl
@[simp] theorem succeed_args (c : Config) (s : State) : (succeed c s).args = s.args := rfl
@[simp] theorem succeed_inputFile (c : Config) (s : State) : (succeed c s).inputFile = s.inputFile := rfl
@[simp] theorem succeed_writeFailure (c : Config) (s : State) : (succeed c s).writeFailure = s.writeFailure := rfl
@[simp] theorem succeed_source (c : Config) (s : State) : (succeed c s).source = [] := rfl
@[simp] theorem succeed_lineNo (c : Config) (s : State) : (succeed c s).lineNo = 1 := rfl
@[simp] theorem succeed_program (c : Config) (s : State) : (succeed c s).program = [] := rfl
@[simp] theorem succeed_slot (c : Config) (s : State) : (succeed c s).slot = 0 := rfl
@[simp] theorem succeed_out (c : Config) (s : State) : (succeed c s).out = [] := rfl
@[simp] theorem succeed_image (c : Config) (s : State) : (succeed c s).image = some (fileImage c s) := rfl
@[simp] theorem succeed_error (c : Config) (s : State) : (succeed c s).error = s.error := rfl
@[simp] theorem succeed_stdout (c : Config) (s : State) : (succeed c s).stdout =
    s.stdout ++ ["wrote " ++ toString (imageSize c s) ++ " bytes to " ++ outputPath s] := rfl
@[simp] theorem succeed_stderr (c : Config) (s : State) : (succeed c s).stderr = s.stderr := rfl
@[simp] theorem succeed_exitStatus (c : Config) (s : State) : (succeed c s).exitStatus = some 0 := rfl
@[simp] theorem succeed_draws (c : Config) (s : State) : (succeed c s).draws = s.draws := rfl

/-! ### showUsage -/

@[simp] theorem showUsage_phase (c : Config) (s : State) : (showUsage c s).phase = .usageShown := rfl
@[simp] theorem showUsage_args (c : Config) (s : State) : (showUsage c s).args = s.args := rfl
@[simp] theorem showUsage_inputFile (c : Config) (s : State) : (showUsage c s).inputFile = s.inputFile := rfl
@[simp] theorem showUsage_writeFailure (c : Config) (s : State) : (showUsage c s).writeFailure = s.writeFailure := rfl
@[simp] theorem showUsage_source (c : Config) (s : State) : (showUsage c s).source = s.source := rfl
@[simp] theorem showUsage_lineNo (c : Config) (s : State) : (showUsage c s).lineNo = s.lineNo := rfl
@[simp] theorem showUsage_program (c : Config) (s : State) : (showUsage c s).program = s.program := rfl
@[simp] theorem showUsage_slot (c : Config) (s : State) : (showUsage c s).slot = s.slot := rfl
@[simp] theorem showUsage_out (c : Config) (s : State) : (showUsage c s).out = s.out := rfl
@[simp] theorem showUsage_image (c : Config) (s : State) : (showUsage c s).image = s.image := rfl
@[simp] theorem showUsage_error (c : Config) (s : State) : (showUsage c s).error = s.error := rfl
@[simp] theorem showUsage_stdout (c : Config) (s : State) : (showUsage c s).stdout = s.stdout := rfl
@[simp] theorem showUsage_stderr (c : Config) (s : State) : (showUsage c s).stderr = s.stderr ++ [c.usageText s.draws] := rfl
@[simp] theorem showUsage_exitStatus (c : Config) (s : State) : (showUsage c s).exitStatus = some (c.usageExit s.draws) := rfl
@[simp] theorem showUsage_draws (c : Config) (s : State) : (showUsage c s).draws = s.draws + 1 := rfl

/-! ### beginRun -/

@[simp] theorem beginRun_phase (lines : List Line) (s : State) : (beginRun lines s).phase = .assembling := rfl
@[simp] theorem beginRun_args (lines : List Line) (s : State) : (beginRun lines s).args = s.args := rfl
@[simp] theorem beginRun_inputFile (lines : List Line) (s : State) : (beginRun lines s).inputFile = s.inputFile := rfl
@[simp] theorem beginRun_writeFailure (lines : List Line) (s : State) : (beginRun lines s).writeFailure = s.writeFailure := rfl
@[simp] theorem beginRun_source (lines : List Line) (s : State) : (beginRun lines s).source = lines := rfl
@[simp] theorem beginRun_lineNo (lines : List Line) (s : State) : (beginRun lines s).lineNo = 1 := rfl
@[simp] theorem beginRun_program (lines : List Line) (s : State) : (beginRun lines s).program = [] := rfl
@[simp] theorem beginRun_slot (lines : List Line) (s : State) : (beginRun lines s).slot = 0 := rfl
@[simp] theorem beginRun_out (lines : List Line) (s : State) : (beginRun lines s).out = [] := rfl
@[simp] theorem beginRun_image (lines : List Line) (s : State) : (beginRun lines s).image = none := rfl
@[simp] theorem beginRun_error (lines : List Line) (s : State) : (beginRun lines s).error = none := rfl
@[simp] theorem beginRun_stdout (lines : List Line) (s : State) : (beginRun lines s).stdout = s.stdout := rfl
@[simp] theorem beginRun_stderr (lines : List Line) (s : State) : (beginRun lines s).stderr = s.stderr := rfl
@[simp] theorem beginRun_exitStatus (lines : List Line) (s : State) : (beginRun lines s).exitStatus = s.exitStatus := rfl
@[simp] theorem beginRun_draws (lines : List Line) (s : State) : (beginRun lines s).draws = s.draws := rfl

/-! ### placeInstr -/

@[simp] theorem placeInstr_phase (i : Instr) (s : State) : (placeInstr i s).phase = .assembling := rfl
@[simp] theorem placeInstr_args (i : Instr) (s : State) : (placeInstr i s).args = s.args := rfl
@[simp] theorem placeInstr_inputFile (i : Instr) (s : State) : (placeInstr i s).inputFile = s.inputFile := rfl
@[simp] theorem placeInstr_writeFailure (i : Instr) (s : State) : (placeInstr i s).writeFailure = s.writeFailure := rfl
@[simp] theorem placeInstr_source (i : Instr) (s : State) : (placeInstr i s).source = placeLine (spell i) (s.lineNo - 1) s.source := rfl
@[simp] theorem placeInstr_lineNo (i : Instr) (s : State) : (placeInstr i s).lineNo = s.lineNo := rfl
@[simp] theorem placeInstr_program (i : Instr) (s : State) : (placeInstr i s).program = s.program := rfl
@[simp] theorem placeInstr_slot (i : Instr) (s : State) : (placeInstr i s).slot = s.slot := rfl
@[simp] theorem placeInstr_out (i : Instr) (s : State) : (placeInstr i s).out = s.out := rfl
@[simp] theorem placeInstr_image (i : Instr) (s : State) : (placeInstr i s).image = s.image := rfl
@[simp] theorem placeInstr_error (i : Instr) (s : State) : (placeInstr i s).error = s.error := rfl
@[simp] theorem placeInstr_stdout (i : Instr) (s : State) : (placeInstr i s).stdout = s.stdout := rfl
@[simp] theorem placeInstr_stderr (i : Instr) (s : State) : (placeInstr i s).stderr = s.stderr := rfl
@[simp] theorem placeInstr_exitStatus (i : Instr) (s : State) : (placeInstr i s).exitStatus = s.exitStatus := rfl
@[simp] theorem placeInstr_draws (i : Instr) (s : State) : (placeInstr i s).draws = s.draws := rfl

end Sys2Proof.Machine
end

