-- ==== Sys2Proof/Laws/Ops.lean ====
section
/-! SUPPORT. One lemma for each shared operation that says once everything it can do, and the inversion of the step. -/

namespace Sys2Proof.Machine

/-- What `emit` does, and that it does nothing else. -/
theorem emit_emitted (q : Byte) (i : Instr) (s : State) : Emitted q i s (emit q i s) where
  stored := Memory.read_write_same _ _ _
  elsewhere _ h := Memory.read_write_other _ _ _ _ h
  program := rfl
  slot := rfl
  image := rfl
  phase := rfl
  lineNo := rfl
  source := rfl
  error := rfl
  stdout := rfl
  stderr := rfl
  exitStatus := rfl
  args := rfl
  inputFile := rfl
  writeFailure := rfl
  draws := rfl

/-- Every meaning emits one byte for the expansion of its instruction, and does nothing else. -/
theorem exec_emits (i : Instr) (s : State) : ∃ q, exec i s = .next (emit q i.expand s) := by
  cases i <;> exact ⟨_, rfl⟩

/-- `commit` writes the image or ends in the write's error. -/
theorem commit_cases (c : Config) (s : State) :
    (∃ cause, s.writeFailure = some cause ∧ commit c s = abortWrite c cause s) ∨
      (s.writeFailure = none ∧ commit c s = succeed c s) := by
  unfold commit
  cases h : s.writeFailure with
  | none => exact .inr ⟨rfl, rfl⟩
  | some cause => exact .inl ⟨cause, rfl, rfl⟩

/-- Dropping what a run keeps leaves nothing of it. -/
theorem dropTransient_dropped (s : State) : Dropped (dropTransient s) := ⟨rfl, rfl, rfl, rfl, rfl⟩

/-- An error leaves nothing of the run, and a success leaves nothing but the image. -/
theorem abort_dropped (e : AsmError) (d : String) (s : State) : Dropped (abort e d s) := dropTransient_dropped s

theorem commit_dropped (c : Config) (s : State) : Dropped (commit c s) := by
  rcases commit_cases c s with ⟨cause, _, h⟩ | ⟨_, h⟩ <;> rw [h]
  · exact abort_dropped _ _ _
  · exact dropTransient_dropped s

/-- `startRun` shows the usage message, or meets the read's error, or begins the run. -/
theorem startRun_cases (c : Config) (s : State) :
    (s.args.length ≠ 2 ∧ startRun c s = showUsage c s) ∨
      (s.args.length = 2 ∧ ∃ cause, s.inputFile = .failed cause ∧ startRun c s = abortRead c cause s) ∨
      (s.args.length = 2 ∧ ∃ t, s.inputFile = .text t ∧ startRun c s = beginRun (splitLines c t) s) := by
  unfold startRun
  rcases h : s.args with _ | ⟨a, _ | ⟨b, _ | ⟨d, r⟩⟩⟩
  · exact .inl ⟨by simp, rfl⟩
  · exact .inl ⟨by simp, rfl⟩
  · refine .inr ?_
    cases h' : s.inputFile with
    | text t => exact .inr ⟨rfl, t, rfl, rfl⟩
    | failed cause => exact .inl ⟨rfl, cause, rfl, rfl⟩
  · exact .inl ⟨by simp, rfl⟩

/-- Everything a step can do. -/
theorem step_cases (s : State) :
    (s.phase = .start ∧ step s = .next (startRun pactConfig s)) ∨
      (s.phase = .assembling ∧ fetchLine s = none ∧ step s = .next (commit pactConfig s)) ∨
      (s.phase = .assembling ∧ ∃ l, fetchLine s = some l ∧
        ((readLine pactConfig s.lineNo l = .blank ∧ step s = .next (advanceLine s)) ∨
          (∃ i, readLine pactConfig s.lineNo l = .instr i ∧ step s = exec i (advanceLine s)) ∨
          ∃ e, readLine pactConfig s.lineNo l = .error e ∧ step s = .next (abortLine pactConfig e s))) ∨
      (ended s = true ∧ step s = .next s) := by
  unfold step ended
  cases hp : s.phase with
  | start => exact .inl ⟨rfl, rfl⟩
  | assembling =>
    refine .inr ?_
    cases hf : fetchLine s with
    | none => exact .inl ⟨rfl, rfl, by simp [stepAssembling, hf]⟩
    | some l =>
      refine .inr (.inl ⟨rfl, l, rfl, ?_⟩)
      simp only [stepAssembling, hf, stepLine]
      cases hr : readLine pactConfig s.lineNo l with
      | blank => exact .inl ⟨rfl, rfl⟩
      | instr i => exact .inr (.inl ⟨i, rfl, rfl⟩)
      | error e => exact .inr (.inr ⟨e, rfl, rfl⟩)
  | succeeded => exact .inr (.inr (.inr ⟨rfl, rfl⟩))
  | failed => exact .inr (.inr (.inr ⟨rfl, rfl⟩))
  | usageShown => exact .inr (.inr (.inr ⟨rfl, rfl⟩))

/-- One step of a run, for any machine behind the host's interface. -/
theorem run_next (M : Host.Core) (k : Nat) (s t : M.State) (h : M.step s = .next t) : M.run (k + 1) s = M.run k t := by
  simp [Host.Core.run, h]

/-- The line placed at an index is the line found there. -/
theorem placeLine_get (l : Line) (k : Nat) (ls : List Line) : (placeLine l k ls)[k]? = some l := by
  induction k generalizing ls with
  | zero => cases ls <;> rfl
  | succ k ih => cases ls <;> simpa [placeLine] using ih _

/-- A placed instruction's line is the next line the step takes. -/
@[simp] theorem fetchLine_placeInstr (i : Instr) (s : State) : fetchLine (placeInstr i s) = some (spell i) :=
  placeLine_get _ _ _

end Sys2Proof.Machine
end

