-- ==== Sys2Proof/Laws/PerInstr.lean ====
section
/-! SUPPORT. The per-instruction family `ShapeMatches`: the data of every instruction has the shape of its opcode's category
and its numbers are in range, so the instruction is well formed (spec 10_state.md R29). -/

namespace Sys2Proof.Laws

/-- The (opcode, data) pair of the instruction is well formed, and rebuilding the instruction from it gives the
instruction back, the pseudo-instruction as its expansion (R29, R101, R157). -/
def ShapeMatches.Statement (i : Instr) : Prop := i.wellFormed = true ∧ i.raw.instr? = some i.expand

theorem ShapeMatches.adi (value : Imm5) : ShapeMatches.Statement (.adi value) := by
  have h := value.isLt
  constructor
  · simp [Instr.wellFormed, Instr.raw, RawInstr.wellFormed, Instr.opcode, Instr.data, RawData.category, Opcode.category,
      RawData.inRange]
    omega
  · simp [Instr.raw, Instr.opcode, Instr.data, RawInstr.instr?, Instr.expand]

theorem ShapeMatches.add (indirect : Bool) (src dest : Register) :
    ShapeMatches.Statement (.add indirect src dest) := ⟨rfl, rfl⟩

theorem ShapeMatches.sub (indirect : Bool) (src dest : Register) :
    ShapeMatches.Statement (.sub indirect src dest) := ⟨rfl, rfl⟩

theorem ShapeMatches.jne (pointer : Bool) (addr : Addr17) : ShapeMatches.Statement (.jne pointer addr) := by
  have h := addr.isLt
  constructor
  · simp [Instr.wellFormed, Instr.raw, RawInstr.wellFormed, Instr.opcode, Instr.data, RawData.category, Opcode.category,
      RawData.inRange]
    omega
  · simp [Instr.raw, Instr.opcode, Instr.data, RawInstr.instr?, Instr.expand]

theorem ShapeMatches.jg (pointer : Bool) (addr : Addr17) : ShapeMatches.Statement (.jg pointer addr) := by
  have h := addr.isLt
  constructor
  · simp [Instr.wellFormed, Instr.raw, RawInstr.wellFormed, Instr.opcode, Instr.data, RawData.category, Opcode.category,
      RawData.inRange]
    omega
  · simp [Instr.raw, Instr.opcode, Instr.data, RawInstr.instr?, Instr.expand]

theorem ShapeMatches.jl (pointer : Bool) (addr : Addr17) : ShapeMatches.Statement (.jl pointer addr) := by
  have h := addr.isLt
  constructor
  · simp [Instr.wellFormed, Instr.raw, RawInstr.wellFormed, Instr.opcode, Instr.data, RawData.category, Opcode.category,
      RawData.inRange]
    omega
  · simp [Instr.raw, Instr.opcode, Instr.data, RawInstr.instr?, Instr.expand]

theorem ShapeMatches.ioi (device : Device) (function : U3) : ShapeMatches.Statement (.ioi device function) := by
  have h := function.isLt
  constructor
  · simp [Instr.wellFormed, Instr.raw, RawInstr.wellFormed, Instr.opcode, Instr.data, RawData.category, Opcode.category,
      RawData.inRange]
    omega
  · simp [Instr.raw, Instr.opcode, Instr.data, RawInstr.instr?, Instr.expand]

theorem ShapeMatches.ior (device : Device) (function : U3) : ShapeMatches.Statement (.ior device function) := by
  have h := function.isLt
  constructor
  · simp [Instr.wellFormed, Instr.raw, RawInstr.wellFormed, Instr.opcode, Instr.data, RawData.category, Opcode.category,
      RawData.inRange]
    omega
  · simp [Instr.raw, Instr.opcode, Instr.data, RawInstr.instr?, Instr.expand]

theorem ShapeMatches.hlt : ShapeMatches.Statement .hlt := ⟨rfl, rfl⟩

end Sys2Proof.Laws
end

