-- ==== Sys2Proof/Tests/Slice0.lean ====
section
/-! SUPPORT. The model's own tests, as named theorems. Expected bytes and errors are those of spec 95_test_vectors.md, or
words written out bit by bit from the encodings of R63 to R66; none is the model's own answer. The last part shows, for each
statement that has hypotheses, a state and operands that meet them all. -/

namespace Sys2Proof.Machine.Tests

/-! ### Well-formedness: one ill-formed pair for each check (R27, R29) -/

theorem test_wf_refuses_wrong_shape : RawInstr.wellFormed ⟨.adi, .memoryAddress false 3⟩ = false := by decide
theorem test_wf_refuses_jump_with_immediate : RawInstr.wellFormed ⟨.jne, .immediate 3⟩ = false := by decide
theorem test_wf_refuses_add_with_io : RawInstr.wellFormed ⟨.add, .ioOperation .cpu 0⟩ = false := by decide
theorem test_wf_refuses_ior_with_registers : RawInstr.wellFormed ⟨.ior, .registerPair true .ra .rb⟩ = false := by decide
theorem test_wf_refuses_immediate_32 : RawInstr.wellFormed ⟨.adi, .immediate 32⟩ = false := by decide
theorem test_wf_refuses_address_17 : RawInstr.wellFormed ⟨.jl, .memoryAddress true 17⟩ = false := by decide
theorem test_wf_refuses_function_8 : RawInstr.wellFormed ⟨.ioi, .ioOperation .mth 8⟩ = false := by decide
theorem test_wf_accepts_the_maxima :
    RawInstr.wellFormed ⟨.adi, .immediate 31⟩ = true ∧ RawInstr.wellFormed ⟨.jg, .memoryAddress false 16⟩ = true ∧
      RawInstr.wellFormed ⟨.ior, .ioOperation .kbd 7⟩ = true := by decide
theorem test_ill_formed_pair_is_no_instruction : RawInstr.instr? ⟨.jne, .memoryAddress false 17⟩ = none := by decide

/-! ### Decoding: words written out from the encodings (R63 to R66, R120 to R157, default codes) -/

theorem test_decode_adi : decodeTableWord 8 0b00011111 = some (.adi 31) := by decide
theorem test_decode_add : decodeTableWord 8 0b00100001 = some (.add false .ra .rb) := by decide
theorem test_decode_addp : decodeTableWord 8 0b00111110 = some (.add true .rd .rc) := by decide
theorem test_decode_sub : decodeTableWord 8 0b01001011 = some (.sub false .rc .rd) := by decide
theorem test_decode_subp : decodeTableWord 8 0b01010001 = some (.sub true .ra .rb) := by decide
theorem test_decode_jne : decodeTableWord 8 0b01101111 = some (.jne false 15) := by decide
theorem test_decode_jgp : decodeTableWord 8 0b10011001 = some (.jg true 9) := by decide
theorem test_decode_jlp : decodeTableWord 8 0b10110100 = some (.jl true 4) := by decide
theorem test_decode_ioi : decodeTableWord 8 0b11001011 = some (.ioi .kbd 3) := by decide
theorem test_decode_ior : decodeTableWord 8 0b11110111 = some (.ior .scr 7) := by decide
/-- The byte of `hlt` is that of `ioi cpu 0` and decodes to it (R78). -/
theorem test_decode_hlt_byte : decodeTableWord 8 0b11000000 = some (.ioi .cpu 0) := by decide
theorem test_decode_nothing : decode [] = .error .endOfBytes := rfl

/-! ### Encoding: bytes of 95_test_vectors.md part 2 -/

theorem test_encode_adi_16 : encode (.adi 16) = [0x10] := by decide
theorem test_encode_add : encode (.add false .rb .ra) = [0x24] := by decide
theorem test_encode_subp : encode (.sub true .rd .ra) = [0x5C] := by decide
theorem test_encode_jnep : encode (.jne true 15) = [0x7F] := by decide
theorem test_encode_jg : encode (.jg false 2) = [0x82] := by decide
theorem test_encode_jlp : encode (.jl true 15) = [0xBF] := by decide
theorem test_encode_ioi : encode (.ioi .mth 7) = [0xDF] := by decide
theorem test_encode_ior : encode (.ior .kbd 0) = [0xE8] := by decide
theorem test_encode_hlt : encode .hlt = [0xC0] := by decide

/-! ### One step on a small state -/

/-- The body after one step of a run under way on one source line. -/
def bodyAfter (line : Line) : Memory :=
  match step { State.reset with phase := .assembling, source := [line] } with
  | .next t => t.out
  | .fault _ => []
  | .refused _ => []

/-- The error recorded by one step of a run under way on one source line. -/
def errorAfter (line : Line) : Option AsmError :=
  match step { State.reset with phase := .assembling, source := [line] } with
  | .next t => t.error
  | .fault _ => none
  | .refused _ => none

theorem test_step_adi_leading_zeros : bodyAfter "adi 007".toList = [(0, 0x07)] := by decide
theorem test_step_addp_upper_case : bodyAfter "ADDP RA RB".toList = [(0, 0x31)] := by decide
theorem test_step_sub : bodyAfter "sub rc rd".toList = [(0, 0x4B)] := by decide
theorem test_step_jne : bodyAfter "jne 5".toList = [(0, 0x65)] := by decide
theorem test_step_jgp : bodyAfter "Jgp 9".toList = [(0, 0x99)] := by decide
theorem test_step_jlp : bodyAfter "jlp 4".toList = [(0, 0xB4)] := by decide
theorem test_step_ioip_drops_the_flag : bodyAfter "ioip cpu 0".toList = [(0, 0xC0)] := by decide
theorem test_step_ior : bodyAfter "IOR Scr 5".toList = [(0, 0xF5)] := by decide
theorem test_step_hlt_ignores_the_rest : bodyAfter "hlt this text is ignored".toList = [(0, 0xC0)] := by decide
/-- Address 16 is accepted and its opcode bits are fixed (R143). -/
theorem test_step_jne_16_runs : bodyAfter "jne 16".toList = [(0, 0x60 ||| (Config.freeAddr16Low5 false).setWidth 8)] := by rfl
theorem test_step_blank_line : bodyAfter "   ".toList = [] := by decide

theorem test_error_adip : errorAfter "adip 5".toList = some (.invalidInstruction "adip".toList 1) := by decide
theorem test_error_hltp : errorAfter "hltp".toList = some (.invalidInstruction "hltp".toList 1) := by decide
theorem test_error_leading_space : errorAfter " add ra rb".toList = some (.invalidInstruction [] 1) := by decide
theorem test_error_trailing_space : errorAfter "add ra rb ".toList = some (.lineTooLong 1) := by decide
theorem test_error_arity_first : errorAfter "add zz".toList = some (.lineTooShort 1) := by decide
theorem test_error_arity_before_range : errorAfter "adi 99 1".toList = some (.lineTooLong 1) := by decide
theorem test_error_left_register : errorAfter "add xx yy".toList = some (.invalidRegister "xx".toList 1) := by decide
theorem test_error_device : errorAfter "ioi foo 9".toList = some (.invalidDevice "foo".toList 1) := by decide
theorem test_error_plus_sign : errorAfter "adi +5".toList = some (.invalidInteger "+5".toList 1) := by decide
theorem test_error_adi_32 : errorAfter "adi 32".toList = some (.integerTooLarge 32 31 1) := by decide
theorem test_error_jl_17 : errorAfter "jl 17".toList = some (.integerTooLarge 17 16 1) := by decide
theorem test_error_ior_8 : errorAfter "ior kbd 8".toList = some (.integerTooLarge 8 7 1) := by decide

/-- The fetched word runs as the first instruction after reset. -/
theorem test_word_runs_from_reset :
    (match step (State.reset.withFetchWord 8 0x2C) with
      | .next t => decide (t.out = [(0, 0x2C)] ∧ t.lineNo = 2)
      | .fault _ => false
      | .refused _ => false) = true := by decide

/-! ### Small programs of 95_test_vectors.md part 4, as texts -/

/-- P1: the source's end-to-end example. -/
theorem test_program_P1 : (assemble pactConfig (splitLines pactConfig "add ra rb\nsub rc rd\nhlt\n".toList)).toOption =
    some [0x21, 0x4B, 0xC0] := by decide

/-- P3: blank lines count as lines; the error is on line 4. -/
theorem test_program_P3 : assemble pactConfig ["adi 1".toList, [], "   ".toList, "add ra rx".toList, "sub ra rb".toList] =
    .error (.invalidRegister "rx".toList 4) := by rfl

/-! ### A state and operands that meet the hypotheses of each statement -/

theorem test_pactConfig_uniqueCodes : pactConfig.UniqueCodes where
  opcode a b := by cases a <;> cases b <;> decide
  register a b := by cases a <;> cases b <;> decide
  device a b := by cases a <;> cases b <;> decide

theorem test_pactConfig_parsesSmall : pactConfig.ParsesSmall := by
  intro m h
  cases h

theorem test_limited_config_parsesSmall : Config.ParsesSmall { pactConfig with parseLimit := some 32 } := by
  intro m h
  cases h
  decide

theorem test_witness_exact : (Instr.jl true 15).exact = true ∧ (Instr.jne false 16).exact = false := by decide

/-- A run under way with these lines left, nothing emitted yet. -/
def underWay (lines : List Line) : State :=
  { State.invoke ["a", "b"] (.text []) none with phase := .assembling, source := lines }

theorem test_witness_instruction_line : (underWay ["jne 16".toList]).phase = .assembling ∧
    fetchLine (underWay ["jne 16".toList]) = some "jne 16".toList ∧
    readLine pactConfig (underWay ["jne 16".toList]).lineNo "jne 16".toList = .instr (.jne false 16) := by decide

theorem test_witness_blank_line : (underWay [[]]).phase = .assembling ∧ fetchLine (underWay [[]]) = some [] ∧
    isBlankLine pactConfig [] = true := by decide

theorem test_witness_error_line : (underWay ["mov ra rb".toList]).phase = .assembling ∧
    fetchLine (underWay ["mov ra rb".toList]) = some "mov ra rb".toList ∧
    readLine pactConfig (underWay ["mov ra rb".toList]).lineNo "mov ra rb".toList =
      .error (.invalidInstruction "mov".toList 1) := by decide

theorem test_witness_failed_read : (State.invoke ["a", "b"] (.failed ⟨5⟩) none).args = ["a", "b"] ∧
    (State.invoke ["a", "b"] (.failed ⟨5⟩) none).phase = .start ∧
    (State.invoke ["a", "b"] (.failed ⟨5⟩) none).inputFile = .failed ⟨5⟩ := by decide

theorem test_witness_failed_write : ({ underWay [] with writeFailure := some ⟨7⟩ } : State).args = ["a", "b"] ∧
    ({ underWay [] with writeFailure := some ⟨7⟩ } : State).phase = .assembling ∧
    fetchLine { underWay [] with writeFailure := some ⟨7⟩ } = none := by decide

/-- A run under way after its one line `add ra rb`, about to commit. -/
def aboutToCommit : State :=
  { underWay ["add ra rb".toList] with lineNo := 2, program := [.add false .ra .rb], slot := 1, out := [(0, 0x21)] }

theorem test_witness_runInv : RunInv aboutToCommit where
  body := by decide
  slot := rfl
  line := by decide
  core := by decide
  kept h := absurd rfl h
  seen := ⟨rfl, rfl, rfl, rfl, rfl⟩

/-- A line of the six blank ASCII characters is skipped; one more character, just outside their ranges, makes it no blank
line. -/
theorem test_blank_characters :
    isBlankLine pactConfig [' ', '\t', '\n', Char.ofNat 0x0B, Char.ofNat 0x0C, '\r'] = true ∧
      ∀ n ∈ [8, 14, 31, 33, 64, 127], isBlankLine pactConfig [' ', Char.ofNat n] = false := by decide

/-- An ASCII character, and one beyond. -/
theorem test_witness_characters : '\t'.toNat < 128 ∧ 128 ≤ (Char.ofNat 0xA0).toNat := by decide

theorem test_witness_commit : aboutToCommit.args = ["a", "b"] ∧ aboutToCommit.phase = .assembling ∧
    fetchLine aboutToCommit = none ∧ aboutToCommit.writeFailure = none ∧
    (∀ k, k < aboutToCommit.slot → (Memory.read aboutToCommit.out k).isSome = true) := by
  refine ⟨rfl, rfl, by decide, rfl, fun k hk => ?_⟩
  have hk' : k < 1 := hk
  obtain rfl : k = 0 := by omega
  decide

theorem test_witness_step_keeps_runInv : ∃ t, RunInv aboutToCommit ∧ memoriesWf aboutToCommit = true ∧
    step aboutToCommit = .next t := ⟨_, test_witness_runInv, by decide, rfl⟩

theorem test_witness_usage : (State.invoke ["a"] (.text []) none).phase = .start ∧
    (State.invoke ["a"] (.text []) none).args.length ≠ 2 ∧
    (State.invoke ["a", "b", "c"] (.text []) none).args.length ≠ 2 := by decide

theorem test_witness_run_start : (State.invoke ["a", "b"] (.text "adi 1".toList) none).phase = .start ∧
    (State.invoke ["a", "b"] (.text "adi 1".toList) none).args = ["a", "b"] ∧
    (State.invoke ["a", "b"] (.text "adi 1".toList) none).inputFile = .text "adi 1".toList := by decide

theorem test_witness_ended : ended { State.reset with phase := .failed } = true := by decide

theorem test_witness_mnemonics : lower "HLT".toList = ['h', 'l', 't'] ∧ lower "JgP".toList = ['j', 'g', 'p'] ∧
    lower "addpp".toList ∉ [['h', 'l', 't'], ['a', 'd', 'i'], ['a', 'd', 'd'], ['a', 'd', 'd', 'p'], ['s', 'u', 'b'],
      ['s', 'u', 'b', 'p'], ['j', 'n', 'e'], ['j', 'n', 'e', 'p'], ['j', 'g'], ['j', 'g', 'p'], ['j', 'l'],
      ['j', 'l', 'p'], ['i', 'o', 'i'], ['i', 'o', 'i', 'p'], ['i', 'o', 'r'], ['i', 'o', 'r', 'p']] := by decide

/-- Lines whose first token is `hlt`, is in the table, and is not in it, none of them blank. -/
theorem test_witness_mnemonic_lines : tokens "Hlt x".toList = "Hlt".toList :: ["x".toList] ∧
    tokens "JgP 16".toList = "JgP".toList :: ["16".toList] ∧
    (tokens "addpp ra".toList = "addpp".toList :: ["ra".toList] ∧ isBlankLine pactConfig "addpp ra".toList = false) := by decide

theorem test_witness_operand_symbols : lower "Rd".toList = ['r', 'd'] ∧
    lower "r0".toList ∉ [['r', 'a'], ['r', 'b'], ['r', 'c'], ['r', 'd']] ∧ lower "MTH".toList = ['m', 't', 'h'] ∧
    lower "tty".toList ∉ [['c', 'p', 'u'], ['k', 'b', 'd'], ['s', 'c', 'r'], ['m', 't', 'h']] := by decide

theorem test_witness_arity : (Opcode.adi.category = .immediate ∧ ([] : List (List Char)).length < 1 ∧ 1 < ["1".toList, "2".toList].length) ∧
    (Opcode.ior.category = .ioOperation ∧ ["cpu".toList].length < 2 ∧
      2 < ["cpu".toList, "1".toList, "2".toList].length) := by decide

/-- Lines that are one operand short and one too long for their mnemonic. -/
theorem test_witness_arity_lines : (tokens "ior cpu".toList = "ior".toList :: ["cpu".toList] ∧
      resolveMnemonic 1 "ior".toList ["cpu".toList] = .ok (.operation .ior false ["cpu".toList])) ∧
    (tokens "adi 1 2".toList = "adi".toList :: ["1".toList, "2".toList] ∧
      resolveMnemonic 1 "adi".toList ["1".toList, "2".toList] = .ok (.operation .adi false ["1".toList, "2".toList])) := by
  decide

theorem test_witness_integer_after_device : deviceOfToken "mth".toList = some .mth ∧ ([] : Text) = [] := by decide

theorem test_witness_integers : ("007".toList ≠ [] ∧ ∀ ch ∈ "007".toList, '0' ≤ ch ∧ ch ≤ '9') ∧
    ∃ ch ∈ "+5".toList, ¬ ('0' ≤ ch ∧ ch ≤ '9') :=
  ⟨⟨by decide, by simp⟩, '+', by simp, by simp⟩

theorem test_witness_address_field : (Opcode.jl, Instr.jl) ∈ [(Opcode.jne, Instr.jne), (Opcode.jg, Instr.jg), (Opcode.jl, Instr.jl)] ∧
    (15 : Addr17).val ≤ 15 := by simp

theorem test_witness_adip_line : tokens "ADIP 1 2 3".toList = "ADIP".toList :: ["1".toList, "2".toList, "3".toList] ∧
    lower "ADIP".toList = ['a', 'd', 'i', 'p'] := by decide

theorem test_witness_hlt_line : tokens "Hlt x y".toList = "Hlt".toList :: ["x".toList, "y".toList] ∧
    lower "Hlt".toList = ['h', 'l', 't'] := by decide

theorem test_witness_range : unsignedOfToken pactConfig "31".toList = some 31 ∧
    unsignedOfToken pactConfig "32".toList = some 32 ∧ unsignedOfToken pactConfig "16".toList = some 16 ∧
    unsignedOfToken pactConfig "17".toList = some 17 ∧ unsignedOfToken pactConfig "7".toList = some 7 ∧
    unsignedOfToken pactConfig "8".toList = some 8 ∧ deviceOfToken "kbd".toList = some .kbd := by decide

theorem test_witness_unbounded_parser : pactConfig.parseLimit = none := rfl

theorem test_witness_bad_left_operand : registerOperand 1 "xx".toList = .error (.invalidRegister "xx".toList 1) ∧
    deviceOperand 1 "foo".toList = .error (.invalidDevice "foo".toList 1) := ⟨rfl, rfl⟩

/-- A good first operand and a bad second one: a register, a number out of range, a token that is no number. -/
theorem test_witness_bad_right_operand : (registerOperand 1 "ra".toList = .ok .ra ∧
      lower "RE".toList ∉ [['r', 'a'], ['r', 'b'], ['r', 'c'], ['r', 'd']]) ∧
    deviceOperand 1 "mth".toList = .ok .mth ∧
    integerOperand pactConfig 7 1 "8".toList = .error (.integerTooLarge 8 7 1) ∧
    unsignedOfToken pactConfig "-1".toList = none := ⟨by decide, rfl, rfl, rfl⟩

/-- One accepted line of each shape. -/
theorem test_witness_flag : validate pactConfig 1 .jg true ["16".toList] = .ok (.jg true 16) ∧
    validate pactConfig 1 .ioi true ["cpu".toList, "7".toList] = .ok (.ioi .cpu 7) ∧
    validate pactConfig 1 .adi false ["31".toList] = .ok (.adi 31) ∧
    validate pactConfig 1 .sub true ["rd".toList, "rd".toList] = .ok (.sub true .rd .rd) := ⟨rfl, rfl, rfl, rfl⟩

theorem test_witness_letter_case : lower "ADD RA RB".toList = lower "add ra rb".toList ∧
    readLine pactConfig 1 "ADD RA RB".toList = .instr (.add false .ra .rb) := by decide

/-- Lines with and without a carriage return, and a last line with no line feed. -/
theorem test_witness_lines : (∀ l ∈ [['h', 'l', 't'], [], ['a', '\r']], '\n' ∉ l) ∧ '\n' ∉ ['a', '\r'] ∧ '\n' ∉ ([] : Line) := by decide

/-- The last line needs no line feed. -/
theorem test_split_last_line : splitLines pactConfig "adi 1\nhlt".toList = ["adi 1".toList, "hlt".toList] := by decide

theorem test_witness_first_error : (∀ p ∈ ["jl 3".toList].zipIdx 1, ∀ e, readLine pactConfig p.2 p.1 ≠ .error e) ∧
    readLine pactConfig (["jl 3".toList].length + 1) "adi 32".toList = .error (.integerTooLarge 32 31 2) := by
  refine ⟨fun p hp e => ?_, by decide⟩
  simp only [List.zipIdx_cons, List.zipIdx_nil, List.mem_singleton] at hp
  subst hp
  have h : readLine pactConfig 1 "jl 3".toList = .instr (.jl false 3) := by decide
  exact fun h' => by cases h.symm.trans h'

/-- Two starts that differ in what they held before, with the same inputs, and a step of each. -/
theorem test_witness_second_run : ∃ t t',
    core.run 1 (State.invoke ["a", "b"] (.text "adi 1".toList) none) = .next t ∧
    core.run 1 { State.invoke ["a", "b"] (.text "adi 1".toList) none with program := [.hlt], lineNo := 9 } = .next t' :=
  ⟨_, _, rfl, rfl⟩

/-- A step at each boundary, and one that reads no host input. -/
theorem test_witness_boundary_steps : (∃ t, step aboutToCommit = .next t ∧ aboutToCommit.phase ≠ .start) ∧
    (∃ t, step (State.invoke ["a", "b"] (.text []) none) = .next t ∧
      (State.invoke ["a", "b"] (.text []) none).phase ≠ .assembling) ∧
    ∃ t, step (underWay ["jl 15".toList]) = .next t ∧ (underWay ["jl 15".toList]).phase ≠ .start ∧
      fetchLine (underWay ["jl 15".toList]) ≠ none :=
  ⟨⟨_, rfl, by decide⟩, ⟨_, rfl, by decide⟩, _, rfl, by decide, by decide⟩

/-- After the write, and after an error, nothing of the run is kept. -/
theorem test_end_drops : (match step aboutToCommit with
      | .next t => decide (t.phase = .succeeded ∧ t.source = [] ∧ t.lineNo = 1 ∧ t.program = [] ∧ t.slot = 0 ∧ t.out = [])
      | .fault _ => false
      | .refused _ => false) = true := by decide

/-- An invoked run that has ended. -/
theorem test_witness_ended_run : ∃ t, core.run 1 (State.invoke ["a"] (.text []) none) = .next t ∧ ended t = true :=
  ⟨_, rfl, rfl⟩

/-- A run that has met an error. -/
theorem test_witness_error_in_a_run : ∃ t, core.run 1 (State.invoke ["a", "b"] (.failed ⟨5⟩) none) = .next t ∧
    t.error = some (.ioError ⟨5⟩) := ⟨_, rfl, rfl⟩

theorem test_witness_assembled_text : assemble pactConfig ["jlp 15".toList] = .ok [0xBF] := by rfl

theorem test_witness_run_prefix : ∃ t, core.run 1 (State.invoke ["a", "b"] (.text "adi 1".toList) none) = .next t := ⟨_, rfl⟩

theorem test_witness_run_length : (splitLines pactConfig "adi 1\nhlt\n".toList).length + 2 ≤ 4 := by decide

end Sys2Proof.Machine.Tests
end

section
/-! SUPPORT. Raw pairs and the instructions they are (spec 10_state.md R28, R29), and the pseudo-instruction's expansion. -/

namespace Sys2Proof

/-! ### The opcodes of each category (R73) -/

theorem Opcode.category_immediate_iff (o : Opcode) : o.category = .immediate ↔ o = .adi := by
  cases o <;> simp [Opcode.category]

theorem Opcode.category_registerPair_iff (o : Opcode) : o.category = .registerPair ↔ o = .add ∨ o = .sub := by
  cases o <;> simp [Opcode.category]

theorem Opcode.category_memoryAddress_iff (o : Opcode) :
    o.category = .memoryAddress ↔ o = .jne ∨ o = .jg ∨ o = .jl := by
  cases o <;> simp [Opcode.category]

theorem Opcode.category_ioOperation_iff (o : Opcode) : o.category = .ioOperation ↔ o = .ioi ∨ o = .ior := by
  cases o <;> simp [Opcode.category]

/-! ### The expansion (R92, R157) -/

@[simp] theorem Instr.expand_ne_hlt (i : Instr) : i.expand ≠ .hlt := by
  cases i <;> simp [Instr.expand]

theorem Instr.expand_of_ne_hlt {i : Instr} (h : i ≠ .hlt) : i.expand = i := by
  cases i with
  | hlt => exact absurd rfl h
  | _ => rfl

/-! ### The pair of an instruction -/

/-- Every instruction has the shape of its opcode's category, and its pair gives it back (R29, R101). -/
theorem shapeMatches (i : Instr) : Laws.ShapeMatches.Statement i := by
  cases i with
  | adi value => exact Laws.ShapeMatches.adi value
  | add indirect src dest => exact Laws.ShapeMatches.add indirect src dest
  | sub indirect src dest => exact Laws.ShapeMatches.sub indirect src dest
  | jne pointer addr => exact Laws.ShapeMatches.jne pointer addr
  | jg pointer addr => exact Laws.ShapeMatches.jg pointer addr
  | jl pointer addr => exact Laws.ShapeMatches.jl pointer addr
  | ioi device function => exact Laws.ShapeMatches.ioi device function
  | ior device function => exact Laws.ShapeMatches.ior device function
  | hlt => exact Laws.ShapeMatches.hlt

theorem Instr.raw_wellFormed (i : Instr) : i.raw.wellFormed = true := (shapeMatches i).1

/-- Pseudo-instruction aside, an instruction is determined by its pair: the pair rebuilds it. -/
theorem Instr.raw_injective {i j : Instr} (hi : i ≠ .hlt) (hj : j ≠ .hlt) (h : i.raw = j.raw) : i = j := by
  have rebuilt : some i.expand = some j.expand :=
    calc some i.expand = i.raw.instr? := (shapeMatches i).2.symm
      _ = j.raw.instr? := by rw [h]
      _ = some j.expand := (shapeMatches j).2
  rwa [Instr.expand_of_ne_hlt hi, Instr.expand_of_ne_hlt hj, Option.some_inj] at rebuilt

/-- A well-formed pair is the pair of an instruction: the shape leaves only the opcodes of its category, and the range
makes the number a field value. -/
theorem RawInstr.exists_instr_of_wellFormed {r : RawInstr} (h : r.wellFormed = true) :
    ∃ i : Instr, i ≠ .hlt ∧ i.raw = r := by
  obtain ⟨o, data⟩ := r
  simp only [RawInstr.wellFormed, Bool.and_eq_true, decide_eq_true_eq] at h
  obtain ⟨shape, range⟩ := h
  cases data with
  | immediate v =>
    have hv : v ≤ 31 := by simpa [RawData.inRange] using range
    obtain rfl := (Opcode.category_immediate_iff o).1 shape.symm
    exact ⟨.adi ⟨v, by omega⟩, by simp, rfl⟩
  | registerPair f s d =>
    obtain rfl | rfl := (Opcode.category_registerPair_iff o).1 shape.symm
    · exact ⟨.add f s d, by simp, rfl⟩
    · exact ⟨.sub f s d, by simp, rfl⟩
  | memoryAddress f a =>
    have ha : a ≤ 16 := by simpa [RawData.inRange] using range
    obtain rfl | rfl | rfl := (Opcode.category_memoryAddress_iff o).1 shape.symm
    · exact ⟨.jne f ⟨a, by omega⟩, by simp, rfl⟩
    · exact ⟨.jg f ⟨a, by omega⟩, by simp, rfl⟩
    · exact ⟨.jl f ⟨a, by omega⟩, by simp, rfl⟩
  | ioOperation v f =>
    have hf : f ≤ 7 := by simpa [RawData.inRange] using range
    obtain rfl | rfl := (Opcode.category_ioOperation_iff o).1 shape.symm
    · exact ⟨.ioi v ⟨f, by omega⟩, by simp, rfl⟩
    · exact ⟨.ior v ⟨f, by omega⟩, by simp, rfl⟩

/-- Settles O11: the pair of an instruction is well formed, and a well-formed pair rebuilds its one instruction. -/
theorem wellFormedPairsAreInstructions : Obligations.WellFormedPairsAreInstructions := by
  intro r
  constructor
  · intro h
    obtain ⟨i, hi, hr⟩ := RawInstr.exists_instr_of_wellFormed h
    exact ⟨i, ⟨hi, hr⟩, fun j ⟨hj, hjr⟩ => Instr.raw_injective hj hi (hjr.trans hr.symm)⟩
  · rintro ⟨i, ⟨_, rfl⟩, _⟩
    exact i.raw_wellFormed

end Sys2Proof
end

section
/-! SUPPORT. The flat ports with an instruction on them (spec 10_state.md R22, R23). -/

namespace Sys2Proof.Machine

@[simp] theorem drive_op (c : Config) (i : Instr) (idle : Ports) : (drive c i idle).op = c.opcodeCode i.opcode := by
  cases i <;> rfl

/-- The payload wires that the category reads carry the payload of the instruction, whatever the idle ports carry. -/
theorem portPayload_drive (c : Config) (i : Instr) (idle : Ports) :
    portPayload c (drive c i idle) i.opcode.category = payloadOf c i := by
  cases i with
  | jne f a | jg f a | jl f a => simp [portPayload, drive, payloadOf, payloadMemoryAddress, Instr.opcode, Opcode.category]
  | _ => rfl

/-- Where `op` carries an opcode's code, the output is that code followed by the payload wires of its category. -/
theorem blockOutput_of_op {c : Config} (hc : c.UniqueCodes) {p : Ports} {o : Opcode} (hp : p.op = c.opcodeCode o) :
    blockOutput c p = some (instructionByte c o (portPayload c p o.category)) := by
  simp only [blockOutput, hp, opcodeOfCode_code hc, instructionByte]

/-- Settles O10: the opcode port selects the category, and the category's wires carry the payload. -/
theorem portsGiveTheEncoding : Obligations.PortsGiveTheEncoding := by
  intro c hc i idle
  rw [blockOutput_of_op hc (drive_op c i idle), portPayload_drive, encodeWith]

end Sys2Proof.Machine
end

section
/-! SUPPORT. The run invariant through each operation of the machine, and along every run. -/

namespace Sys2Proof.Machine

/-! ### Emission and the image, in the terms of the encode function -/

/-- Every meaning emits the encode function's byte for the expansion of its instruction (R71, R92). -/
theorem exec_eq_emit (i : Instr) (s : State) :
    exec i s = .next (emit (encodeWith pactConfig i.expand) i.expand s) := by
  cases i with
  | adi v => simp only [exec, execAdi, immediateByte_eq]; rfl
  | add f r d => simp only [exec, execAdd, registerPairByte_eq]; rfl
  | sub f r d => simp only [exec, execSub, registerPairByte_eq]; rfl
  | jne f a => simp only [exec, execJne, memoryAddressByte_eq]; rfl
  | jg f a => simp only [exec, execJg, memoryAddressByte_eq]; rfl
  | jl f a => simp only [exec, execJl, memoryAddressByte_eq]; rfl
  | ioi v f => simp only [exec, execIoi, ioByte_eq]; rfl
  | ior v f => simp only [exec, execIor, ioByte_eq]; rfl
  | hlt => simp only [exec, execHlt, ioByte_eq]; rfl

/-- Writing the byte of one more instruction at the end of the body gives the body of the longer program (R40). -/
theorem write_bodyOf_end (program : List Instr) (i : Instr) :
    Memory.write (bodyOf program) program.length (encodeWith pactConfig i) = bodyOf (program ++ [i]) := by
  simpa [bodyOf] using Memory.write_ofBytes_end 0 (program.map (encodeWith pactConfig)) (encodeWith pactConfig i)

/-- The image of a state whose body is the encoding of its program is the image of that program (R41, R43). -/
theorem fileImage_eq_imageOf {s : State} (body : s.out = bodyOf s.program) (slot : s.slot = s.program.length) :
    fileImage pactConfig s = imageOf s.program := by
  have copied := copyBody_ofBytes pactConfig.magicBytes (s.program.map (encodeWith pactConfig)) s.program.length
    (by simp)
  rw [List.take_of_length_le (by simp)] at copied
  rw [fileImage, imageOf, Memory.writeBytes_nil, body, slot, bodyOf, copied]

/-! ### What can be seen before the end -/

/-- Before the commit, an error or the usage message, nothing of a run can be seen (R50). -/
theorem runInv_unseen {s : State} (h : RunInv s) (hp : s.phase = .start ∨ s.phase = .assembling) : Unseen s := by
  have seen := h.seen
  unfold VisibleOutcome at seen
  obtain hp | hp := hp <;> rwa [hp] at seen

/-! ### The invariant of states that keep nothing -/

/-- Where nothing is kept, the run invariant asks only that what can be seen fits the phase. -/
theorem runInv_of_dropped {s : State} (h : Dropped s) (seen : VisibleOutcome s) : RunInv s := by
  have ⟨_, hline, hprogram, hslot, hout⟩ := h
  exact
    { body := by simp [hout, hprogram, bodyOf, Memory.ofBytes]
      slot := by simp [hslot, hprogram]
      line := by omega
      core := by simp [hprogram]
      kept := fun _ => h
      seen := seen }

/-- The start of an invoked run keeps nothing and shows nothing (R35, R201). -/
theorem runInv_invoke (args : List String) (f : FileRead) (w : Option IoCause) : RunInv (State.invoke args f w) :=
  runInv_of_dropped ⟨rfl, rfl, rfl, rfl, rfl⟩ ⟨rfl, rfl, rfl, rfl, rfl⟩

/-- Settles O47: the reset state is the invoked state with nothing supplied. -/
theorem invokedRunMeetsTheInvariant : Obligations.InvokedRunMeetsTheInvariant :=
  ⟨runInv_invoke [] (.text []) none, rfl, runInv_invoke⟩

/-! ### The invariant through each operation -/

/-- An error taken while nothing can be seen shows one diagnostic line and no image (R183). -/
theorem runInv_abort (e : AsmError) (diagnostic : String) {s : State} (h : Unseen s) :
    RunInv (abort e diagnostic s) := by
  obtain ⟨_, _, hstdout, hstderr, _⟩ := h
  refine runInv_of_dropped (abort_dropped e diagnostic s) ?_
  simp [VisibleOutcome, hstdout, hstderr]

/-- The usage message is shown by a run that keeps nothing (R188). -/
theorem runInv_showUsage (c : Config) {s : State} (h : Dropped s) (hseen : Unseen s) : RunInv (showUsage c s) := by
  obtain ⟨himage, herror, hstdout, hstderr, _⟩ := hseen
  refine runInv_of_dropped (by simpa [Dropped] using h) ?_
  simp [VisibleOutcome, himage, herror, hstdout, hstderr]

theorem runInv_beginRun (lines : List Line) {s : State} (h : Unseen s) : RunInv (beginRun lines s) := by
  obtain ⟨_, _, hstdout, hstderr, hexit⟩ := h
  exact
    { body := rfl
      slot := rfl
      line := by simp
      core := by simp
      kept := by simp
      seen := by simp [VisibleOutcome, Unseen, hstdout, hstderr, hexit] }

theorem runInv_advanceLine {s : State} (h : RunInv s) (hp : s.phase = .assembling) : RunInv (advanceLine s) where
  body := h.body
  slot := h.slot
  line := by simp
  core := h.core
  kept := by simp [hp]
  seen := h.seen

/-- Emitting the byte of an instruction that is not the pseudo-instruction extends body, slot index and program alike. -/
theorem runInv_emit {s : State} (h : RunInv s) (hp : s.phase = .assembling) {i : Instr} (hi : i ≠ .hlt) :
    RunInv (emit (encodeWith pactConfig i) i s) where
  body := by rw [emit_out, emit_program, h.body, h.slot, write_bodyOf_end]
  slot := by simp [h.slot]
  line := h.line
  core := by simp [h.core, hi.symm]
  kept := by simp [hp]
  seen := h.seen

/-- The commit of a successful run shows the whole image of the program and its size (R50, R187). -/
theorem runInv_succeed {s : State} (h : RunInv s) (hseen : Unseen s) : RunInv (succeed pactConfig s) := by
  obtain ⟨_, herror, hstdout, hstderr, _⟩ := hseen
  have image : (succeed pactConfig s).image = some (imageOf s.program) := by
    rw [succeed_image, fileImage_eq_imageOf h.body h.slot]
  have message : (succeed pactConfig s).stdout = [successMessage s.program (outputPath s)] := by
    rw [succeed_stdout, hstdout, imageSize, h.slot]
    rfl
  exact runInv_of_dropped (dropTransient_dropped s)
    ⟨herror, succeed_exitStatus _ _, hstderr, s.program, h.core, image, message⟩

theorem runInv_commit {s : State} (h : RunInv s) (hseen : Unseen s) : RunInv (commit pactConfig s) := by
  obtain ⟨cause, _, hc⟩ | ⟨_, hc⟩ := commit_cases pactConfig s <;> rw [hc]
  · exact runInv_abort _ _ hseen
  · exact runInv_succeed h hseen

theorem runInv_startRun (c : Config) {s : State} (h : Dropped s) (hseen : Unseen s) : RunInv (startRun c s) := by
  obtain ⟨_, hs⟩ | ⟨_, cause, _, hs⟩ | ⟨_, text, _, hs⟩ := startRun_cases c s <;> rw [hs]
  · exact runInv_showUsage c h hseen
  · exact runInv_abort _ _ hseen
  · exact runInv_beginRun _ hseen

/-! ### The invariant along a run -/

/-- Settles O48, by the case split of everything a step can do: the start of the run, the commit, a blank line, an
instruction's line, a line in error, a run that has ended. -/
theorem stepKeepsTheRunInvariant : Obligations.StepKeepsTheRunInvariant := by
  intro s t h hst
  obtain ⟨hp, hs⟩ | ⟨hp, _, hs⟩ | ⟨hp, _, _, ⟨_, hs⟩ | ⟨i, _, hs⟩ | ⟨e, _, hs⟩⟩ | ⟨_, hs⟩ := step_cases s
  · obtain rfl := Host.Outcome.next.inj (hs.symm.trans hst)
    exact runInv_startRun _ (h.kept (by simp [hp])) (runInv_unseen h (.inl hp))
  · obtain rfl := Host.Outcome.next.inj (hs.symm.trans hst)
    exact runInv_commit h (runInv_unseen h (.inr hp))
  · obtain rfl := Host.Outcome.next.inj (hs.symm.trans hst)
    exact runInv_advanceLine h hp
  · rw [exec_eq_emit] at hs
    obtain rfl := Host.Outcome.next.inj (hs.symm.trans hst)
    exact runInv_emit (runInv_advanceLine h hp) hp i.expand_ne_hlt
  · obtain rfl := Host.Outcome.next.inj (hs.symm.trans hst)
    exact runInv_abort _ _ (runInv_unseen h (.inr hp))
  · obtain rfl := Host.Outcome.next.inj (hs.symm.trans hst)
    exact h

/-- What every step keeps, every number of steps keeps, for any machine behind the host's interface. -/
theorem run_keeps {M : Host.Core} {P : M.State → Prop} (keeps : ∀ s t, P s → M.step s = .next t → P t) (k : Nat)
    {s t : M.State} (h : P s) (hrun : M.run k s = .next t) : P t := by
  induction k generalizing s with
  | zero =>
    obtain rfl : s = t := by simpa [Host.Core.run] using hrun
    exact h
  | succ k ih =>
    cases hstep : M.step s with
    | next u => exact ih (keeps s u h hstep) (by rwa [run_next M k s u hstep] at hrun)
    | fault r => simp [Host.Core.run, hstep] at hrun
    | refused r => simp [Host.Core.run, hstep] at hrun

/-- Every state of every run the host invokes meets the run invariant. -/
theorem runInv_of_run {args : List String} {f : FileRead} {w : Option IoCause} {k : Nat} {t : State}
    (h : core.run k (State.invoke args f w) = .next t) : RunInv t :=
  run_keeps (M := core) stepKeepsTheRunInvariant k (runInv_invoke args f w) h

/-! ### The end of the run -/

theorem step_of_no_line {s : State} (hp : s.phase = .assembling) (hf : fetchLine s = none) :
    step s = .next (commit pactConfig s) := by
  simp only [step, hp, stepAssembling, hf]

/-- The commit ends the run, in an image or in the write's error. -/
theorem ended_commit (c : Config) (s : State) : ended (commit c s) = true := by
  obtain ⟨cause, _, h⟩ | ⟨_, h⟩ := commit_cases c s <;> rw [h] <;> rfl

theorem phase_ne_assembling_of_ended {s : State} (h : ended s = true) : s.phase ≠ .assembling := by
  intro hp
  simp [ended, hp] at h

/-- Settles O55: the commit drops what was kept, from every state; and an ended run keeps nothing by the run invariant. -/
theorem endOfTheRunDropsWhatItKept : Obligations.EndOfTheRunDropsWhatItKept := by
  refine ⟨fun s hp hf => ?_, fun args f w k t hrun hended => ?_⟩
  · exact ⟨commit pactConfig s, step_of_no_line hp hf, ended_commit _ _, commit_dropped _ _⟩
  · exact (runInv_of_run hrun).kept (phase_ne_assembling_of_ended hended)

end Sys2Proof.Machine
end

section
/-! SUPPORT. What one step answers, each branch as an equation for the next state, and the lines a run has still to take. -/

namespace Sys2Proof.Machine

/-! ### The next state of a step -/

/-- Everything the next state of a step can be: `step_cases` with every meaning as the emission of its byte. -/
theorem step_next_cases {s t : State} (h : step s = .next t) :
    (s.phase = .start ∧ t = startRun pactConfig s) ∨
      (s.phase = .assembling ∧ fetchLine s = none ∧ t = commit pactConfig s) ∨
      (s.phase = .assembling ∧ ∃ l, fetchLine s = some l ∧
        ((readLine pactConfig s.lineNo l = .blank ∧ t = advanceLine s) ∨
          (∃ i, readLine pactConfig s.lineNo l = .instr i ∧
            t = emit (encodeWith pactConfig i.expand) i.expand (advanceLine s)) ∨
          ∃ e, readLine pactConfig s.lineNo l = .error e ∧ t = abortLine pactConfig e s)) ∨
      (ended s = true ∧ t = s) := by
  have next {u : State} (hu : step s = .next u) : t = u := Host.Outcome.next.inj (h.symm.trans hu)
  obtain ⟨hp, hs⟩ | ⟨hp, hf, hs⟩ | ⟨hp, l, hf, ⟨hr, hs⟩ | ⟨i, hr, hs⟩ | ⟨e, hr, hs⟩⟩ | ⟨he, hs⟩ := step_cases s
  · exact .inl ⟨hp, next hs⟩
  · exact .inr (.inl ⟨hp, hf, next hs⟩)
  · exact .inr (.inr (.inl ⟨hp, l, hf, .inl ⟨hr, next hs⟩⟩))
  · exact .inr (.inr (.inl ⟨hp, l, hf, .inr (.inl ⟨i, hr, next (hs.trans (exec_eq_emit i _))⟩)⟩))
  · exact .inr (.inr (.inl ⟨hp, l, hf, .inr (.inr ⟨e, hr, next hs⟩)⟩))
  · exact .inr (.inr (.inr ⟨he, next hs⟩))

/-- A run under way that has a line takes it. -/
theorem step_of_line {s : State} {l : Line} (hp : s.phase = .assembling) (hf : fetchLine s = some l) :
    step s = stepLine s l := by
  simp only [step, hp, stepAssembling, hf]

/-! ### Blank lines (R54, R87) -/

theorem readLine_of_blank {c : Config} {l : Line} (n : Nat) (h : isBlankLine c l = true) :
    readLine c n l = .blank := by
  rw [readLine, if_pos h]

/-- Settles O23: the front end skips a blank line, and the step then moves the line counter. -/
theorem blankLineOnlyMovesTheLineCounter : Obligations.BlankLineOnlyMovesTheLineCounter := by
  intro s l hp hf hblank
  rw [step_of_line hp hf, stepLine, readLine_of_blank _ hblank, advanceLine]

/-! ### The lines still to be taken -/

/-- The lines a run has still to take: those from the line counter on (R31). -/
def restLines (s : State) : List Line := s.source.drop (s.lineNo - 1)

theorem restLines_of_no_line {s : State} (h : fetchLine s = none) : restLines s = [] :=
  List.drop_eq_nil_of_le (List.getElem?_eq_none_iff.mp h)

theorem restLines_of_line {s : State} {l : Line} (hline : 1 ≤ s.lineNo) (h : fetchLine s = some l) :
    restLines s = l :: restLines (advanceLine s) := by
  obtain ⟨hlt, rfl⟩ := List.getElem?_eq_some_iff.mp h
  have hnext : s.lineNo - 1 + 1 = s.lineNo + 1 - 1 := by omega
  rw [restLines, List.drop_eq_getElem_cons hlt, hnext]
  rfl

end Sys2Proof.Machine
end

section
/-! SUPPORT. The two output spaces: what the file image holds at each address (spec 20_memory.md R41, R43), and the
canonical form of both spaces through each operation of the machine. -/

namespace Sys2Proof.Machine

/-! ### The file image, address by address -/

theorem read_fileImage_header (c : Config) (s : State) {j : Nat} (hj : j < c.magicBytes.length) :
    Memory.read (fileImage c s) j = c.magicBytes[j]? := by
  rw [fileImage, read_copyBody_below _ _ _ _ _ hj, Memory.writeBytes_nil]
  simpa using Memory.read_ofBytes 0 j c.magicBytes

theorem read_fileImage_body (c : Config) (s : State) {k : Nat} (hk : k < s.slot)
    (h : (Memory.read s.out k).isSome = true) :
    Memory.read (fileImage c s) (c.magicBytes.length + k) = Memory.read s.out k := by
  obtain ⟨v, hv⟩ := Option.isSome_iff_exists.mp h
  rw [fileImage, hv, read_copyBody_inside _ _ _ _ _ v hk hv]

theorem read_fileImage_end (c : Config) (s : State) {a : Nat} (ha : c.magicBytes.length + s.slot ≤ a) :
    Memory.read (fileImage c s) a = none := by
  have beyond : c.magicBytes[a]? = none := List.getElem?_eq_none_iff.mpr (by omega)
  rw [fileImage, read_copyBody_above _ _ _ _ _ ha, Memory.writeBytes_nil, ← beyond]
  simpa using Memory.read_ofBytes 0 a c.magicBytes

theorem commit_of_write_succeeds (c : Config) {s : State} (h : s.writeFailure = none) : commit c s = succeed c s := by
  rw [commit, h]

/-- Settles O26: the commit writes the file image, whose three address ranges are read off one by one. -/
theorem imageIsHeaderThenBody : Obligations.ImageIsHeaderThenBody := by
  intro s hp hf hw hdense
  have hstep : step s = .next (succeed pactConfig s) := by
    rw [step_of_no_line hp hf, commit_of_write_succeeds _ hw]
  exact ⟨_, fileImage pactConfig s, hstep, succeed_image _ _,
    fun _ hj => read_fileImage_header _ s hj,
    fun k hk => read_fileImage_body _ s hk (hdense k hk),
    fun _ ha => read_fileImage_end _ s ha,
    succeed_stdout _ _⟩

/-! ### The canonical form of both spaces -/

theorem memoriesWf_iff (s : State) :
    memoriesWf s = true ↔ Memory.wf s.out = true ∧ ∀ m, s.image = some m → Memory.wf m = true := by
  unfold memoriesWf
  cases s.image <;> simp

/-- Only the two output spaces matter to their canonical form. -/
theorem memoriesWf_congr {s t : State} (hout : t.out = s.out) (himage : t.image = s.image) :
    memoriesWf t = memoriesWf s := by
  rw [memoriesWf, memoriesWf, hout, himage]

theorem memoriesWf_emit (q : Byte) (i : Instr) {s : State} (h : memoriesWf s = true) :
    memoriesWf (emit q i s) = true := by
  obtain ⟨hout, himage⟩ := (memoriesWf_iff s).mp h
  exact (memoriesWf_iff _).mpr ⟨Memory.wf_write _ _ _ hout, himage⟩

/-- An error leaves an empty body and no image. -/
theorem memoriesWf_abort (e : AsmError) (diagnostic : String) (s : State) : memoriesWf (abort e diagnostic s) = true :=
  rfl

theorem memoriesWf_succeed (c : Config) (s : State) : memoriesWf (succeed c s) = true :=
  wf_fileImage c s

theorem memoriesWf_commit (c : Config) (s : State) : memoriesWf (commit c s) = true := by
  obtain ⟨_, _, hc⟩ | ⟨_, hc⟩ := commit_cases c s <;> rw [hc]
  · exact memoriesWf_abort _ _ _
  · exact memoriesWf_succeed _ _

theorem memoriesWf_startRun (c : Config) {s : State} (h : memoriesWf s = true) : memoriesWf (startRun c s) = true := by
  obtain ⟨_, hs⟩ | ⟨_, _, _, hs⟩ | ⟨_, _, _, hs⟩ := startRun_cases c s <;> rw [hs]
  · rwa [memoriesWf_congr (showUsage_out _ _) (showUsage_image _ _)]
  · exact memoriesWf_abort _ _ _
  · rfl

/-- Settles O49, by the case split of everything a step can answer. -/
theorem stepKeepsMemoriesCanonical : Obligations.StepKeepsMemoriesCanonical := by
  intro s t h hst
  obtain ⟨_, rfl⟩ | ⟨_, _, rfl⟩ | ⟨_, _, _, ⟨_, rfl⟩ | ⟨_, _, rfl⟩ | ⟨_, _, rfl⟩⟩ | ⟨_, rfl⟩ := step_next_cases hst
  · exact memoriesWf_startRun _ h
  · exact memoriesWf_commit _ _
  · rwa [memoriesWf_congr (advanceLine_out _) (advanceLine_image _)]
  · exact memoriesWf_emit _ _ (by rwa [memoriesWf_congr (advanceLine_out _) (advanceLine_image _)])
  · exact memoriesWf_abort _ _ _
  · exact h

end Sys2Proof.Machine
end

section
/-! SUPPORT. The spec's loop over the lines (30_encoding.md R104): one equation for each result of a line, and what its
success says of the lines. -/

namespace Sys2Proof.Machine

section
variable {c : Config} {n : Nat} {l : Line}

theorem assembleFrom_blank (h : readLine c n l = .blank) (out : List Byte) (ls : List Line) :
    assembleFrom c n out (l :: ls) = assembleFrom c (n + 1) out ls := by
  rw [assembleFrom, h]

theorem assembleFrom_instr {i : Instr} (h : readLine c n l = .instr i) (out : List Byte) (ls : List Line) :
    assembleFrom c n out (l :: ls) = assembleFrom c (n + 1) (out ++ [encodeWith c i]) ls := by
  rw [assembleFrom, h]

theorem assembleFrom_error {e : AsmError} (h : readLine c n l = .error e) (out : List Byte) (ls : List Line) :
    assembleFrom c n out (l :: ls) = .error e := by
  rw [assembleFrom, h]

end

/-- The bytes of the lines numbered from `n` on, in source order: blank lines give none (R49, R104). -/
def lineBytes (c : Config) (n : Nat) (lines : List Line) : List Byte :=
  (lines.zipIdx n).filterMap fun p => lineByte c (readLine c p.2 p.1)

/-- None of the lines numbered from `n` on is in error. -/
def NoLineFails (c : Config) (n : Nat) (lines : List Line) : Prop :=
  ∀ p ∈ lines.zipIdx n, ∀ e, readLine c p.2 p.1 ≠ .error e

theorem lineBytes_cons (c : Config) (n : Nat) (l : Line) (ls : List Line) :
    lineBytes c n (l :: ls) = (lineByte c (readLine c n l)).toList ++ lineBytes c (n + 1) ls := by
  cases h : lineByte c (readLine c n l) <;> simp [lineBytes, h]

theorem noLineFails_cons (c : Config) (n : Nat) (l : Line) (ls : List Line) :
    NoLineFails c n (l :: ls) ↔ (∀ e, readLine c n l ≠ .error e) ∧ NoLineFails c (n + 1) ls := by
  simp [NoLineFails]

/-- The loop succeeds on exactly the lines of which none is in error, and then appends their bytes in order. -/
theorem assembleFrom_ok_iff (c : Config) (n : Nat) (out : List Byte) (lines : List Line) (bytes : List Byte) :
    assembleFrom c n out lines = .ok bytes ↔ bytes = out ++ lineBytes c n lines ∧ NoLineFails c n lines := by
  induction lines generalizing n out with
  | nil => simp [assembleFrom, lineBytes, NoLineFails, eq_comm]
  | cons l ls ih =>
    rw [lineBytes_cons, noLineFails_cons]
    cases h : readLine c n l with
    | blank => simp [assembleFrom_blank h, ih, lineByte]
    | instr i => simp [assembleFrom_instr h, ih, lineByte]
    | error e => simp [assembleFrom_error h]

/-- Settles O45: the loop of `assemble` starts at line 1 with no bytes. -/
theorem bodyIsTheLinesInOrder : Obligations.BodyIsTheLinesInOrder := by
  intro c lines bytes h
  exact (assembleFrom_ok_iff c 1 [] lines bytes).mp h

end Sys2Proof.Machine
end

section
/-! SUPPORT. A run follows the spec's loop over the lines of its input text (20_memory.md R50, 30_encoding.md R104): at every
state under way, the loop from the line counter on, given the bytes so far, answers what it answers on the whole text. -/

namespace Sys2Proof.Machine

/-- The encoder cannot tell `hlt` from what it stands for (R92, R157). -/
@[simp] theorem encodeWith_expand (c : Config) (i : Instr) : encodeWith c i.expand = encodeWith c i := by
  cases i <;> rfl

/-! ### The lines still to come assemble to what the whole text does -/

/-- The spec's loop, entered at the line counter with the bytes of the program so far. -/
def assembleRest (s : State) : Except AsmError (List Byte) :=
  assembleFrom pactConfig s.lineNo (s.program.map (encodeWith pactConfig)) (restLines s)

theorem assembleRest_beginRun (lines : List Line) (s : State) :
    assembleRest (beginRun lines s) = assemble pactConfig lines := rfl

theorem assembleRest_of_no_line {s : State} (hf : fetchLine s = none) :
    assembleRest s = .ok (s.program.map (encodeWith pactConfig)) := by
  rw [assembleRest, restLines_of_no_line hf, assembleFrom]

section
variable {s : State} {l : Line} (hline : 1 ≤ s.lineNo) (hf : fetchLine s = some l)
include hline hf

theorem assembleRest_advanceLine (hr : readLine pactConfig s.lineNo l = .blank) :
    assembleRest (advanceLine s) = assembleRest s := by
  simp only [assembleRest, restLines_of_line hline hf, assembleFrom_blank hr, advanceLine_lineNo, advanceLine_program]

theorem assembleRest_emit {i : Instr} (hr : readLine pactConfig s.lineNo l = .instr i) (q : Byte) :
    assembleRest (emit q i.expand (advanceLine s)) = assembleRest s := by
  have rest : restLines (emit q i.expand (advanceLine s)) = restLines (advanceLine s) := rfl
  simp [assembleRest, rest, restLines_of_line hline hf, assembleFrom_instr hr]

end

/-! ### The invariant -/

/-- The image of the state is the complete image of the input text: the header, then the bytes of its lines (R41, R50). -/
def HasImageOf (f : FileRead) (s : State) : Prop :=
  ∃ text bytes, f = .text text ∧ assemble pactConfig (splitLines pactConfig text) = .ok bytes ∧
    s.image = some (Memory.ofBytes 0 (pactConfig.magicBytes ++ bytes))

/-- How a state of a run depends on the input `f`, by phase: not read yet; being assembled; written whole. -/
def FollowsInput (f : FileRead) (s : State) : Prop :=
  match s.phase with
  | .start => s.inputFile = f
  | .assembling => ∃ text, f = .text text ∧ assembleRest s = assemble pactConfig (splitLines pactConfig text)
  | .succeeded => HasImageOf f s
  | .failed => True
  | .usageShown => True

theorem followsInput_start {f : FileRead} {s : State} (hp : s.phase = .start) :
    FollowsInput f s ↔ s.inputFile = f := by
  simp only [FollowsInput, hp]

theorem followsInput_assembling {f : FileRead} {s : State} (hp : s.phase = .assembling) :
    FollowsInput f s ↔
      ∃ text, f = .text text ∧ assembleRest s = assemble pactConfig (splitLines pactConfig text) := by
  simp only [FollowsInput, hp]

theorem followsInput_succeeded {f : FileRead} {s : State} (hp : s.phase = .succeeded) :
    FollowsInput f s ↔ HasImageOf f s := by
  simp only [FollowsInput, hp]

theorem followsInput_startRun {f : FileRead} {s : State} (h : s.inputFile = f) :
    FollowsInput f (startRun pactConfig s) := by
  obtain ⟨_, hs⟩ | ⟨_, _, _, hs⟩ | ⟨_, text, htext, hs⟩ := startRun_cases pactConfig s <;> rw [hs]
  · trivial
  · trivial
  · exact ⟨text, h.symm.trans htext, assembleRest_beginRun _ _⟩

/-- The commit with no line left writes the image of the whole text, since the program's bytes are what it assembles to. -/
theorem followsInput_commit {f : FileRead} {s : State} (hinv : RunInv s) (hp : s.phase = .assembling)
    (hf : fetchLine s = none) (h : FollowsInput f s) : FollowsInput f (commit pactConfig s) := by
  obtain ⟨text, htext, hrest⟩ := (followsInput_assembling hp).mp h
  obtain ⟨_, _, hc⟩ | ⟨_, hc⟩ := commit_cases pactConfig s <;> rw [hc]
  · trivial
  · refine ⟨text, _, htext, hrest.symm.trans (assembleRest_of_no_line hf), ?_⟩
    rw [succeed_image, fileImage_eq_imageOf hinv.body hinv.slot, imageOf]

/-- A step that stays under way and leaves the loop's answer as it is keeps the invariant. -/
theorem followsInput_of_assembleRest_eq {f : FileRead} {s t : State} (hs : s.phase = .assembling)
    (ht : t.phase = .assembling) (hrest : assembleRest t = assembleRest s) (h : FollowsInput f s) :
    FollowsInput f t := by
  rw [followsInput_assembling ht, hrest]
  exact (followsInput_assembling hs).mp h

/-- Every step keeps the invariant: the loop's answer stays as it is line by line, and the commit writes it. -/
theorem step_keeps_followsInput {f : FileRead} {s t : State} (hinv : RunInv s) (h : FollowsInput f s)
    (hst : step s = .next t) : FollowsInput f t := by
  obtain ⟨hp, rfl⟩ | ⟨hp, hf, rfl⟩ | ⟨hp, l, hf, ⟨hr, rfl⟩ | ⟨i, hr, rfl⟩ | ⟨e, _, rfl⟩⟩ | ⟨_, rfl⟩ :=
    step_next_cases hst
  · exact followsInput_startRun ((followsInput_start hp).mp h)
  · exact followsInput_commit hinv hp hf h
  · exact followsInput_of_assembleRest_eq hp hp (assembleRest_advanceLine hinv.line hf hr) h
  · exact followsInput_of_assembleRest_eq hp hp (assembleRest_emit hinv.line hf hr _) h
  · trivial
  · exact h

/-- Every state of an invoked run follows the run's input. -/
theorem followsInput_of_run {args : List String} {f : FileRead} {w : Option IoCause} {k : Nat} {t : State}
    (h : core.run k (State.invoke args f w) = .next t) : FollowsInput f t :=
  have keeps (s u : State) : RunInv s ∧ FollowsInput f s → step s = .next u → RunInv u ∧ FollowsInput f u :=
    fun ⟨hinv, hfollows⟩ hsu =>
      ⟨stepKeepsTheRunInvariant s u hinv hsu, step_keeps_followsInput hinv hfollows hsu⟩
  (run_keeps (M := core) keeps k ⟨runInv_invoke args f w, rfl⟩ h).2

/-! ### All or nothing -/

/-- A state that meets the run invariant shows no image but after a success, and then no error. -/
theorem runInv_image {s : State} (h : RunInv s) : s.image = none ∨ (s.phase = .succeeded ∧ s.error = none) := by
  have seen := h.seen
  unfold VisibleOutcome at seen
  cases hp : s.phase <;> simp only [hp] at seen
  case succeeded =>
    obtain ⟨herror, _⟩ := seen
    exact .inr ⟨rfl, herror⟩
  all_goals
    obtain ⟨himage, _⟩ := seen
    exact .inl himage

/-- A state that meets the run invariant records no error but after a failure, and then no image. -/
theorem runInv_error {s : State} (h : RunInv s) : s.error = none ∨ (s.phase = .failed ∧ s.image = none) := by
  have seen := h.seen
  unfold VisibleOutcome at seen
  cases hp : s.phase <;> simp only [hp] at seen
  case failed =>
    obtain ⟨himage, _⟩ := seen
    exact .inr ⟨rfl, himage⟩
  case succeeded =>
    obtain ⟨herror, _⟩ := seen
    exact .inl herror
  all_goals
    obtain ⟨_, herror, _⟩ := seen
    exact .inl herror

/-- Settles O50: the run invariant says when an image is there, and following the input says which image it is. -/
theorem imageIsAllOrNothing : Obligations.ImageIsAllOrNothing := by
  intro args f w k t hrun
  have hinv : RunInv t := runInv_of_run hrun
  have hfollows : FollowsInput f t := followsInput_of_run hrun
  refine ⟨?_, fun e he => ?_⟩
  · refine (runInv_image hinv).imp_right fun ⟨hp, herror⟩ => ⟨hp, herror, ?_⟩
    exact (followsInput_succeeded hp).mp hfollows
  · obtain ⟨hp, himage⟩ := (runInv_error hinv).resolve_left (by simp [he])
    obtain ⟨_, _, hprogram, _, hout⟩ := hinv.kept (by simp [hp])
    exact ⟨himage, hout, hprogram⟩

end Sys2Proof.Machine
end

section
/-! SUPPORT. The fields of a payload and of a byte (spec 30_encoding.md R61 to R66), the same as numbers (R71), and the
codes that a bit pattern can carry. -/

namespace Sys2Proof.Machine

/-! ### The fields inside the payload -/

/-- A field inside bits 4:0 of an instruction byte is that field of the payload. -/
theorem instructionByte_field (c : Config) (o : Opcode) (p : BitVec 5) {start len : Nat} (h : start + len ≤ 5) :
    (instructionByte c o p).extractLsb' start len = p.extractLsb' start len :=
  BitVec.extractLsb'_append_eq_of_add_le h

/-- Every byte is its opcode field followed by its payload field. -/
theorem opcodeField_append_payloadField (b : Byte) : b.extractLsb' 5 3 ++ b.extractLsb' 0 5 = b :=
  (BitVec.extractLsb'_append_extractLsb'_eq_extractLsb' rfl).trans BitVec.extractLsb'_eq_self

section
variable (c : Config)

@[simp] theorem payloadImmediate_toNat (v : Imm5) : (payloadImmediate v).toNat = v.val := by
  simp only [payloadImmediate, BitVec.toNat_ofNat]
  omega

@[simp] theorem payloadRegisterPair_flag (f : Bool) (s d : Register) :
    (payloadRegisterPair c f s d).extractLsb' 4 1 = boolBit c f := by
  simp only [payloadRegisterPair]
  generalize boolBit c f = x, c.registerCode s = y, c.registerCode d = z
  revert x y z
  decide

@[simp] theorem payloadRegisterPair_src (f : Bool) (s d : Register) :
    (payloadRegisterPair c f s d).extractLsb' 2 2 = c.registerCode s := by
  simp only [payloadRegisterPair]
  generalize boolBit c f = x, c.registerCode s = y, c.registerCode d = z
  revert x y z
  decide

@[simp] theorem payloadRegisterPair_dest (f : Bool) (s d : Register) :
    (payloadRegisterPair c f s d).extractLsb' 0 2 = c.registerCode d :=
  BitVec.extractLsb'_append_eq_of_add_le (by omega) |>.trans BitVec.extractLsb'_eq_self

theorem payloadRegisterPair_toNat (f : Bool) (s d : Register) :
    (payloadRegisterPair c f s d).toNat =
      16 * (boolBit c f).toNat + 4 * (c.registerCode s).toNat + (c.registerCode d).toNat := by
  simp only [payloadRegisterPair]
  generalize boolBit c f = x, c.registerCode s = y, c.registerCode d = z
  revert x y z
  decide

theorem payloadMemoryAddress_of_fits (f : Bool) {a : Addr17} (ha : a.val ≤ 15) :
    payloadMemoryAddress c f a = boolBit c f ++ BitVec.ofNat 4 a.val := if_pos ha

@[simp] theorem payloadMemoryAddress_sixteen (f : Bool) : payloadMemoryAddress c f 16 = c.addr16Low5 f := rfl

theorem payloadMemoryAddress_flag (f : Bool) {a : Addr17} (ha : a.val ≤ 15) :
    (payloadMemoryAddress c f a).extractLsb' 4 1 = boolBit c f := by
  rw [payloadMemoryAddress_of_fits c f ha, BitVec.extractLsb'_append_eq_of_le le_rfl]
  exact BitVec.extractLsb'_eq_self

theorem payloadMemoryAddress_addr (f : Bool) {a : Addr17} (ha : a.val ≤ 15) :
    ((payloadMemoryAddress c f a).extractLsb' 0 4).toNat = a.val := by
  rw [payloadMemoryAddress_of_fits c f ha, BitVec.extractLsb'_append_eq_of_add_le le_rfl, BitVec.extractLsb'_eq_self,
    BitVec.toNat_ofNat]
  omega

/-- A flag bit above a four-bit field, as a number. -/
theorem toNat_bit_append_nibble (x : BitVec 1) (y : BitVec 4) : (x ++ y).toNat = 16 * x.toNat + y.toNat := by
  revert x y
  decide

theorem payloadMemoryAddress_toNat (f : Bool) (a : Addr17) :
    (payloadMemoryAddress c f a).toNat =
      if a.val ≤ 15 then 16 * (boolBit c f).toNat + a.val else (c.addr16Low5 f).toNat := by
  unfold payloadMemoryAddress
  split
  · rw [toNat_bit_append_nibble, BitVec.toNat_ofNat]
    omega
  · rfl

@[simp] theorem payloadIo_device (v : Device) (f : U3) : (payloadIo c v f).extractLsb' 3 2 = c.deviceCode v :=
  (BitVec.extractLsb'_append_eq_of_le le_rfl).trans BitVec.extractLsb'_eq_self

@[simp] theorem payloadIo_function (v : Device) (f : U3) :
    ((payloadIo c v f).extractLsb' 0 3).toNat = f.val := by
  rw [payloadIo, BitVec.extractLsb'_append_eq_of_add_le le_rfl, BitVec.extractLsb'_eq_self, BitVec.toNat_ofNat]
  omega

theorem payloadIo_toNat (v : Device) (f : U3) :
    (payloadIo c v f).toNat = 8 * (c.deviceCode v).toNat + f.val := by
  have append (x : BitVec 2) (y : BitVec 3) : (x ++ y).toNat = 8 * x.toNat + y.toNat := by
    revert x y
    decide
  rw [payloadIo, append, BitVec.toNat_ofNat]
  omega

end

/-! ### Every bit pattern is a code (R76) -/

/-- Distinct codes of `2 ^ w` symbols use every pattern of `w` bits. -/
theorem exists_of_code {α : Type} {w : Nat} {code : α → BitVec w} (unique : ∀ a b, code a = code b → a = b)
    {symbols : List α} (distinct : symbols.Nodup) (count : symbols.length = 2 ^ w) (b : BitVec w) :
    ∃ a, code a = b := by
  have injective : Function.Injective fun k : Fin (2 ^ w) => (code (symbols.get (k.cast count.symm))).toFin := by
    intro j k h
    have same := unique _ _ (BitVec.toFin_inj.mp h)
    exact Fin.cast_injective _ (List.nodup_iff_injective_get.mp distinct same)
  obtain ⟨k, hk⟩ := Finite.surjective_of_injective injective b.toFin
  exact ⟨_, BitVec.toFin_inj.mp hk⟩

section
variable {c : Config} (hc : c.UniqueCodes)
include hc

theorem exists_opcode_of_code (b : BitVec 3) : ∃ o, c.opcodeCode o = b :=
  exists_of_code hc.opcode (symbols := allOpcodes) (by decide) rfl b

theorem exists_register_of_code (b : BitVec 2) : ∃ r, c.registerCode r = b :=
  exists_of_code hc.register (symbols := allRegisters) (by decide) rfl b

theorem exists_device_of_code (b : BitVec 2) : ∃ d, c.deviceCode d = b :=
  exists_of_code hc.device (symbols := allDevices) (by decide) rfl b

end

/-! ### Every payload is legal (R63 to R66) -/

theorem exists_payloadImmediate (p : BitVec 5) : ∃ v, payloadImmediate v = p :=
  ⟨p.toFin, BitVec.eq_of_toNat_eq (payloadImmediate_toNat _)⟩

/-- A payload is the concatenation of its fields, in each of the three layouts of more than one field. -/
theorem payload_eq_fields (p : BitVec 5) :
    p.extractLsb' 4 1 ++ p.extractLsb' 2 2 ++ p.extractLsb' 0 2 = p ∧
      p.extractLsb' 4 1 ++ p.extractLsb' 0 4 = p ∧ p.extractLsb' 3 2 ++ p.extractLsb' 0 3 = p := by
  revert p
  decide

theorem exists_payloadRegisterPair {c : Config} (hc : c.UniqueCodes) (p : BitVec 5) :
    ∃ f s d, payloadRegisterPair c f s d = p := by
  obtain ⟨s, hs⟩ := exists_register_of_code hc (p.extractLsb' 2 2)
  obtain ⟨d, hd⟩ := exists_register_of_code hc (p.extractLsb' 0 2)
  obtain ⟨fields, _, _⟩ := payload_eq_fields p
  exact ⟨flagOfBit c (p.extractLsb' 4 1), s, d, by rw [payloadRegisterPair, boolBit_flagOfBit, hs, hd, fields]⟩

theorem exists_payloadMemoryAddress (c : Config) (p : BitVec 5) :
    ∃ f, ∃ a : Addr17, a.val ≤ 15 ∧ payloadMemoryAddress c f a = p := by
  have fits : (p.extractLsb' 0 4).toNat ≤ 15 := by omega
  refine ⟨flagOfBit c (p.extractLsb' 4 1), ⟨(p.extractLsb' 0 4).toNat, by omega⟩, fits, ?_⟩
  obtain ⟨_, fields, _⟩ := payload_eq_fields p
  rw [payloadMemoryAddress_of_fits c _ fits, boolBit_flagOfBit, BitVec.ofNat_toNat, BitVec.setWidth_eq, fields]

/-- Flag and address are read back off the payload, where the address fits. -/
theorem payloadMemoryAddress_injective {c : Config} {f g : Bool} {a b : Addr17} (ha : a.val ≤ 15) (hb : b.val ≤ 15)
    (h : payloadMemoryAddress c f a = payloadMemoryAddress c g b) : f = g ∧ a = b := by
  have sameBit : boolBit c f = boolBit c g := by
    rw [← payloadMemoryAddress_flag c f ha, h, payloadMemoryAddress_flag c g hb]
  have sameAddr : a.val = b.val := by
    rw [← payloadMemoryAddress_addr c f ha, h, payloadMemoryAddress_addr c g hb]
  exact ⟨by rw [← flagOfBit_boolBit c f, sameBit, flagOfBit_boolBit], Fin.ext sameAddr⟩

theorem exists_payloadIo {c : Config} (hc : c.UniqueCodes) (p : BitVec 5) : ∃ v f, payloadIo c v f = p := by
  obtain ⟨v, hv⟩ := exists_device_of_code hc (p.extractLsb' 3 2)
  refine ⟨v, (p.extractLsb' 0 3).toFin, ?_⟩
  have function : BitVec.ofNat 3 (p.extractLsb' 0 3).toFin.val = p.extractLsb' 0 3 := by
    rw [BitVec.val_toFin, BitVec.ofNat_toNat, BitVec.setWidth_eq]
  obtain ⟨_, _, fields⟩ := payload_eq_fields p
  rw [payloadIo, hv, function, fields]

end Sys2Proof.Machine
end

section
/-! SUPPORT. The encoding by fields and as a number, and its inverse (spec 30_encoding.md R61 to R80). -/

namespace Sys2Proof.Machine

/-! ### The fields of an encoding -/

@[simp] theorem encodeWith_opcode (c : Config) (i : Instr) :
    (encodeWith c i).extractLsb' 5 3 = c.opcodeCode i.opcode := instructionByte_opcode _ _ _

@[simp] theorem encodeWith_payload (c : Config) (i : Instr) : (encodeWith c i).extractLsb' 0 5 = payloadOf c i :=
  instructionByte_payload _ _ _

theorem encodeWith_field (c : Config) (i : Instr) {start len : Nat} (h : start + len ≤ 5) :
    (encodeWith c i).extractLsb' start len = (payloadOf c i).extractLsb' start len := instructionByte_field _ _ _ h

/-- Settles O1: the opcode's code is in bits 7:5, and unique codes tell the opcodes apart. -/
theorem opcodeCodeThenPayload : Obligations.OpcodeCodeThenPayload := by
  intro c hc
  refine ⟨fun i => ⟨encodeWith_opcode c i, encodeWith_payload c i⟩, fun i j => ?_⟩
  rw [encodeWith_opcode, encodeWith_opcode]
  exact ⟨hc.opcode _ _, congrArg c.opcodeCode⟩

/-- Settles O3: the payload is the value's five bits, and every pattern is the value it spells. -/
theorem formatImmediate : Obligations.FormatImmediate := by
  refine fun c => ⟨fun v => ⟨encodeWith_opcode c _, ?_⟩, fun p => ?_⟩
  · rw [encodeWith_payload, payloadOf, payloadImmediate_toNat]
  · obtain ⟨v, hv⟩ := exists_payloadImmediate p
    exact ⟨v, (encodeWith_payload c _).trans hv⟩

/-- Settles O4: `add` and `sub` share their payload, whose three fields are the flag and the two register codes. -/
theorem formatRegisterPair : Obligations.FormatRegisterPair := by
  refine fun c hc => ⟨fun f s d row hrow => ?_, fun p => ?_⟩
  · have fields (i : Instr) (hi : payloadOf c i = payloadRegisterPair c f s d) :
        (encodeWith c i).extractLsb' 4 1 = boolBit c f ∧ (encodeWith c i).extractLsb' 2 2 = c.registerCode s ∧
          (encodeWith c i).extractLsb' 0 2 = c.registerCode d := by
      simp [encodeWith_field, hi]
    obtain rfl | rfl : row = (.add, .add f s d) ∨ row = (.sub, .sub f s d) := by simpa using hrow
    · exact ⟨encodeWith_opcode c _, fields _ rfl⟩
    · exact ⟨encodeWith_opcode c _, fields _ rfl⟩
  · obtain ⟨f, s, d, hp⟩ := exists_payloadRegisterPair hc p
    exact ⟨f, s, d, (encodeWith_payload c _).trans hp, (encodeWith_payload c _).trans hp⟩

/-- The three jumps as constructors: each has its opcode and the payload of format M. -/
theorem payloadOf_jump {mk : Opcode × (Bool → Addr17 → Instr)}
    (hmk : mk ∈ [(Opcode.jne, Instr.jne), (Opcode.jg, Instr.jg), (Opcode.jl, Instr.jl)]) (c : Config) (f : Bool)
    (a : Addr17) : (mk.2 f a).opcode = mk.1 ∧ payloadOf c (mk.2 f a) = payloadMemoryAddress c f a := by
  obtain rfl | rfl | rfl : mk = (.jne, .jne) ∨ mk = (.jg, .jg) ∨ mk = (.jl, .jl) := by simpa using hmk
  all_goals exact ⟨rfl, rfl⟩

/-- Settles O5: the three jumps share their payload; flag and fitting address are its two fields, so they determine it
and are determined by it. -/
theorem formatMemoryAddress : Obligations.FormatMemoryAddress := by
  intro c mk hmk
  have opcode (f : Bool) (a : Addr17) := (payloadOf_jump hmk c f a).1
  have payload (f : Bool) (a : Addr17) := (payloadOf_jump hmk c f a).2
  refine ⟨fun f a => ?_, fun f a ha => ⟨?_, ?_⟩, fun f => ?_, fun p => ?_⟩
  · rw [encodeWith_opcode, opcode]
  · rw [encodeWith_field c _ le_rfl, payload, payloadMemoryAddress_flag c f ha]
  · rw [encodeWith_field c _ (by omega), payload, payloadMemoryAddress_addr c f ha]
  · rw [encodeWith_payload, payload, payloadMemoryAddress_sixteen]
  · obtain ⟨f, a, ha, hp⟩ := exists_payloadMemoryAddress c p
    refine ⟨(f, a), ⟨ha, by rw [encodeWith_payload, payload, hp]⟩, fun (g, b) ⟨hb, hq⟩ => ?_⟩
    rw [encodeWith_payload, payload] at hq
    obtain ⟨rfl, rfl⟩ := payloadMemoryAddress_injective hb ha (hq.trans hp.symm)
    rfl

/-- Settles O6: `ioi` and `ior` share their payload, whose two fields are the device code and the function. -/
theorem formatIoOperation : Obligations.FormatIoOperation := by
  refine fun c hc => ⟨fun v f row hrow => ?_, fun p => ?_⟩
  · have fields (i : Instr) (hi : payloadOf c i = payloadIo c v f) :
        (encodeWith c i).extractLsb' 3 2 = c.deviceCode v ∧ ((encodeWith c i).extractLsb' 0 3).toNat = f.val := by
      rw [encodeWith_field c i (by omega), encodeWith_field c i (by omega), hi]
      exact ⟨payloadIo_device c v f, payloadIo_function c v f⟩
    obtain rfl | rfl : row = (.ioi, .ioi v f) ∨ row = (.ior, .ior v f) := by simpa using hrow
    · exact ⟨encodeWith_opcode c _, fields _ rfl⟩
    · exact ⟨encodeWith_opcode c _, fields _ rfl⟩
  · obtain ⟨v, f, hp⟩ := exists_payloadIo hc p
    exact ⟨v, f, (encodeWith_payload c _).trans hp, (encodeWith_payload c _).trans hp⟩

/-! ### The encoding as a number -/

/-- Settles O2: a byte is 32 times its opcode code plus its payload, and each shape's payload is the sum of its shifted
fields. -/
theorem encodeFunctionByShape : Obligations.EncodeFunctionByShape := by
  intro c i
  rw [encodeWith, instructionByte_toNat]
  congr 1
  cases i with
  | adi v => exact payloadImmediate_toNat v
  | add f s d | sub f s d => exact payloadRegisterPair_toNat c f s d
  | jne f a | jg f a | jl f a => exact payloadMemoryAddress_toNat c f a
  | ioi v f | ior v f => exact payloadIo_toNat c v f
  | hlt => exact payloadIo_toNat c .cpu 0

/-- Under the default polarity true is 1 (D6). -/
theorem boolBit_pactConfig_toNat (f : Bool) : (boolBit pactConfig f).toNat = f.toNat := by
  cases f <;> rfl

theorem pactConfig_opcodeCode (o : Opcode) : pactConfig.opcodeCode o = listingOpcodeCode o := rfl

theorem pactConfig_registerCode (r : Register) : pactConfig.registerCode r = listingRegisterCode r := rfl

theorem pactConfig_deviceCode (v : Device) : pactConfig.deviceCode v = listingDeviceCode v := rfl

/-- The default codes are unique: listing order gives each symbol its own number (D3 to D5). -/
theorem pactConfig_uniqueCodes : pactConfig.UniqueCodes where
  opcode a b := by cases a <;> cases b <;> decide
  register a b := by cases a <;> cases b <;> decide
  device a b := by cases a <;> cases b <;> decide

/-- The default parser has no limit (D19). -/
theorem pactConfig_parsesSmall : pactConfig.ParsesSmall := nofun

/-- Settles O12: the encoding as a number, at the default codes. -/
theorem defaultOpcodeMap : Obligations.DefaultOpcodeMap := by
  refine ⟨by decide, by decide, fun v => ?_, fun f s d => ⟨?_, ?_⟩, fun f a ha => ⟨?_, ?_, ?_⟩,
    fun v f => ⟨?_, ?_⟩, by decide⟩
  all_goals
    rw [encodeFunctionByShape]
    simp [boolBit_pactConfig_toNat, pactConfig_opcodeCode, pactConfig_registerCode, pactConfig_deviceCode,
      listingOpcodeCode, Instr.opcode, *, Nat.add_assoc]

/-! ### Decoding (R80) -/

section
variable {c : Config} (hc : c.UniqueCodes) (o : Opcode)

theorem flagOfBit_payloadRegisterPair (f : Bool) (s d : Register) :
    flagOfBit c ((instructionByte c o (payloadRegisterPair c f s d)).extractLsb' 4 1) = f := by
  rw [instructionByte_field _ _ _ le_rfl, payloadRegisterPair_flag, flagOfBit_boolBit]

theorem flagOfBit_payloadMemoryAddress (f : Bool) {a : Addr17} (ha : a.val ≤ 15) :
    flagOfBit c ((instructionByte c o (payloadMemoryAddress c f a)).extractLsb' 4 1) = f := by
  rw [instructionByte_field _ _ _ le_rfl, payloadMemoryAddress_flag _ _ ha, flagOfBit_boolBit]

theorem addrField_payloadMemoryAddress (f : Bool) {a : Addr17} (ha : a.val ≤ 15) :
    addrField (instructionByte c o (payloadMemoryAddress c f a)) = a := by
  have field : (addrField (instructionByte c o (payloadMemoryAddress c f a))).val =
      ((instructionByte c o (payloadMemoryAddress c f a)).extractLsb' 0 4).toNat := rfl
  apply Fin.ext
  rw [field, instructionByte_field _ _ _ (by omega), payloadMemoryAddress_addr _ _ ha]

include hc

theorem decodeRegisters_payloadRegisterPair (f : Bool) (s d : Register) (mk : Register → Register → Instr) :
    decodeRegisters c (instructionByte c o (payloadRegisterPair c f s d)) mk = some (mk s d) := by
  rw [decodeRegisters, instructionByte_field _ _ _ (by omega), instructionByte_field _ _ _ (by omega),
    payloadRegisterPair_src, payloadRegisterPair_dest, registerOfCode_code hc, registerOfCode_code hc]

theorem decodeIo_payloadIo (v : Device) (f : U3) (mk : Device → U3 → Instr) :
    decodeIo c (instructionByte c o (payloadIo c v f)) mk = some (mk v f) := by
  have function : ((instructionByte c o (payloadIo c v f)).extractLsb' 0 3).toFin = f := by
    apply Fin.ext
    rw [instructionByte_field _ _ _ (by omega), BitVec.val_toFin, payloadIo_function]
  rw [decodeIo, function, instructionByte_field _ _ _ (by omega), payloadIo_device, deviceOfCode_code hc]

end

/-- Settles O7: the opcode's code selects the arm of the decoder, and each field of that arm is read back. -/
theorem decodeOfEncode : Obligations.DecodeOfEncode := by
  intro c hc i hi
  rw [encodeWith, decodeByte, instructionByte_opcode, opcodeOfCode_code hc]
  cases i with
  | adi v =>
    rw [instructionByte_payload]
    exact congrArg (fun w => some (Instr.adi w)) (Fin.ext (payloadImmediate_toNat v))
  | add f s d | sub f s d =>
    simp only [Instr.opcode, payloadOf, decodeRegisters_payloadRegisterPair hc, flagOfBit_payloadRegisterPair,
      Instr.expand]
  | jne f a | jg f a | jl f a =>
    have ha : a.val ≤ 15 := of_decide_eq_true hi
    simp only [Instr.opcode, payloadOf, flagOfBit_payloadMemoryAddress _ _ ha, addrField_payloadMemoryAddress _ _ ha,
      Instr.expand]
  | ioi v f | ior v f => exact decodeIo_payloadIo hc _ v f _
  | hlt => exact decodeIo_payloadIo hc _ .cpu 0 _

/-- Every opcode with every payload is an instruction whose address fits (R76). -/
theorem exists_exact_instr {c : Config} (hc : c.UniqueCodes) (o : Opcode) (p : BitVec 5) :
    ∃ i : Instr, i.exact = true ∧ i ≠ .hlt ∧ i.opcode = o ∧ payloadOf c i = p := by
  obtain ⟨v, hv⟩ := exists_payloadImmediate p
  obtain ⟨f, s, d, hr⟩ := exists_payloadRegisterPair hc p
  obtain ⟨g, a, ha, hm⟩ := exists_payloadMemoryAddress c p
  obtain ⟨w, u, hd⟩ := exists_payloadIo hc p
  cases o with
  | adi => exact ⟨.adi v, rfl, by simp, rfl, hv⟩
  | add => exact ⟨.add f s d, rfl, by simp, rfl, hr⟩
  | sub => exact ⟨.sub f s d, rfl, by simp, rfl, hr⟩
  | jne => exact ⟨.jne g a, decide_eq_true ha, by simp, rfl, hm⟩
  | jg => exact ⟨.jg g a, decide_eq_true ha, by simp, rfl, hm⟩
  | jl => exact ⟨.jl g a, decide_eq_true ha, by simp, rfl, hm⟩
  | ioi => exact ⟨.ioi w u, rfl, by simp, rfl, hd⟩
  | ior => exact ⟨.ior w u, rfl, by simp, rfl, hd⟩

/-- Pseudo-instruction aside, the byte of an instruction whose address fits decodes to it. -/
theorem decodeByte_of_exact {c : Config} (hc : c.UniqueCodes) {i : Instr} (hi : i.exact = true) (hne : i ≠ .hlt) :
    decodeByte c (encodeWith c i) = some i := by
  rw [decodeOfEncode c hc i hi, Instr.expand_of_ne_hlt hne]

/-- Settles O8: opcode field and payload of the byte are those of an instruction whose address fits, and decoding tells
any two such instructions apart. -/
theorem everyByteIsOneInstruction : Obligations.EveryByteIsOneInstruction := by
  intro c hc b
  obtain ⟨o, ho⟩ := exists_opcode_of_code hc (b.extractLsb' 5 3)
  obtain ⟨i, hi, hne, rfl, hp⟩ := exists_exact_instr hc o (b.extractLsb' 0 5)
  have hb : encodeWith c i = b := by
    rw [encodeWith, instructionByte, ho, hp, opcodeField_append_payloadField]
  have decoded : decodeByte c b = some i := hb ▸ decodeByte_of_exact hc hi hne
  refine ⟨⟨i, ⟨hi, hne, hb⟩, fun j ⟨hj, hjne, hjb⟩ => ?_⟩, i, decoded, hi, hne, hb⟩
  exact Option.some_inj.mp ((hjb ▸ decodeByte_of_exact hc hj hjne).symm.trans decoded)

/-- Settles O9: the byte's opcode and payload are also those of an instruction whose address fits, and that is the one
it decodes to. -/
theorem addressSixteenCollides : Obligations.AddressSixteenCollides := by
  intro c hc i hi
  obtain ⟨j, hj, hne, ho, hp⟩ := exists_exact_instr hc i.opcode (payloadOf c i)
  have distinct : j ≠ i := by
    rintro rfl
    simp [hi] at hj
  have same : encodeWith c j = encodeWith c i := by rw [encodeWith, encodeWith, ho, hp]
  refine ⟨⟨j, distinct, hj, ho, same⟩, ?_⟩
  rw [← same, decodeByte_of_exact hc hj hne]
  exact fun h => distinct (Option.some_inj.mp h)

/-! ### The meanings emit the encoding (R71, R40) -/

/-- Settles O15: every meaning emits the encode function's byte, and emission does nothing else. -/
theorem execEmitsTheEncoding : Obligations.ExecEmitsTheEncoding := by
  intro i s
  refine ⟨_, exec_eq_emit i s, ?_⟩
  rw [encodeWith_expand]
  exact emit_emitted _ _ _

end Sys2Proof.Machine
end

section
/-! SUPPORT. Characters, lines and tokens (spec 30_encoding.md R85 to R88): what case folding keeps, what the pieces between
separators are, and which characters are blank. -/

namespace Sys2Proof.Machine

/-! ### Case folding of one character (R9, R88) -/

theorem lowerChar_of_upper {ch : Char} (h : 65 ≤ ch.toNat ∧ ch.toNat ≤ 90) : (lowerChar ch).toNat = ch.toNat + 32 := by
  rw [lowerChar_toNat, if_pos h]

theorem lowerChar_of_not_upper {ch : Char} (h : ¬(65 ≤ ch.toNat ∧ ch.toNat ≤ 90)) : lowerChar ch = ch := if_neg h

/-- Folding leaves a character as it is, or takes a capital letter to its small letter. -/
theorem lowerChar_cases (ch : Char) :
    lowerChar ch = ch ∨ (65 ≤ ch.toNat ∧ ch.toNat ≤ 90 ∧ (lowerChar ch).toNat = ch.toNat + 32) := by
  by_cases h : 65 ≤ ch.toNat ∧ ch.toNat ≤ 90
  · exact .inr ⟨h.1, h.2, lowerChar_of_upper h⟩
  · exact .inl (lowerChar_of_not_upper h)

/-- Folding makes and unmakes letters only: a character below the letters comes from itself alone. -/
theorem lowerChar_eq_iff_of_not_letter {ch target : Char} (h : target.toNat < 65) : lowerChar ch = target ↔ ch = target := by
  obtain same | ⟨_, _, moved⟩ := lowerChar_cases ch
  · rw [same]
  · refine ⟨?_, ?_⟩ <;> rintro rfl <;> omega

theorem digitValue_lowerChar (ch : Char) : digitValue (lowerChar ch) = digitValue ch := by
  obtain same | ⟨_, _, moved⟩ := lowerChar_cases ch
  · rw [same]
  · rw [digitValue, digitValue, if_neg (by omega), if_neg (by omega)]

/-! ### Blank characters (R87) -/

theorem isAsciiBlank_iff (ch : Char) :
    isAsciiBlank ch = true ↔ ch.toNat = 32 ∨ (9 ≤ ch.toNat ∧ ch.toNat ≤ 13) := by
  simp [isAsciiBlank]

theorem isAsciiBlank_iff_mem (ch : Char) :
    isAsciiBlank ch = true ↔ ch ∈ [' ', '\t', '\n', Char.ofNat 0x0B, Char.ofNat 0x0C, '\r'] := by
  have byCode (other : Char) : ch = other ↔ ch.toNat = other.toNat := Char.toNat_inj.symm
  simp only [isAsciiBlank_iff, List.mem_cons, List.not_mem_nil, or_false, byCode]
  change _ ↔ ch.toNat = 32 ∨ ch.toNat = 9 ∨ ch.toNat = 10 ∨ ch.toNat = 11 ∨ ch.toNat = 12 ∨ ch.toNat = 13
  omega

theorem isBlankChar_of_ascii (c : Config) {ch : Char} (h : ch.toNat < 128) : isBlankChar c ch = isAsciiBlank ch :=
  if_pos h

theorem isBlankChar_of_beyond (c : Config) {ch : Char} (h : 128 ≤ ch.toNat) :
    isBlankChar c ch = c.isBlankBeyondAscii ch := if_neg (by omega)

/-- A letter is not blank. -/
theorem isAsciiBlank_of_letter {ch : Char} (h : 97 ≤ (lowerChar ch).toNat) (h' : (lowerChar ch).toNat ≤ 122) :
    ch.toNat < 128 ∧ isAsciiBlank ch = false := by
  have bounds : 65 ≤ ch.toNat ∧ ch.toNat ≤ 122 := by
    obtain same | ⟨_, _, moved⟩ := lowerChar_cases ch
    · rw [same] at h h'
      omega
    · omega
  have : ¬ isAsciiBlank ch = true := by
    rw [isAsciiBlank_iff]
    omega
  exact ⟨by omega, by simpa using this⟩

/-! ### The pieces between separators (R86) -/

@[simp] theorem splitOn_nil (sep : Char) : splitOn sep [] = [[]] := rfl

@[simp] theorem splitOn_sep (sep : Char) (l : Text) : splitOn sep (sep :: l) = [] :: splitOn sep l := if_pos rfl

/-- A character that does not separate goes to the front of the first piece. -/
theorem splitOn_cons_of_ne {sep ch : Char} (h : ch ≠ sep) (l : Text) : ∃ piece pieces,
    splitOn sep l = piece :: pieces ∧ splitOn sep (ch :: l) = (ch :: piece) :: pieces := by
  obtain ⟨piece, pieces, hl⟩ := List.exists_cons_of_ne_nil (splitOn_ne_nil sep l)
  exact ⟨piece, pieces, hl, by rw [splitOn, if_neg h, hl]⟩

/-- What stands before the first separator is the first piece. -/
theorem splitOn_append_sep {sep : Char} {a : Text} (ha : sep ∉ a) (l : Text) :
    splitOn sep (a ++ sep :: l) = a :: splitOn sep l := by
  induction a with
  | nil => simp
  | cons ch a ih =>
    obtain ⟨hne, ha⟩ : sep ≠ ch ∧ sep ∉ a := by simpa using ha
    obtain ⟨piece, pieces, hpieces, hsplit⟩ := splitOn_cons_of_ne (Ne.symm hne) (a ++ sep :: l)
    rw [ih ha] at hpieces
    obtain ⟨rfl, rfl⟩ := List.cons.inj hpieces
    exact hsplit

theorem splitOn_of_not_mem {sep : Char} {l : Text} (h : sep ∉ l) : splitOn sep l = [l] := by
  induction l with
  | nil => rfl
  | cons ch l ih =>
    obtain ⟨hne, hl⟩ : sep ≠ ch ∧ sep ∉ l := by simpa using h
    obtain ⟨piece, pieces, hpieces, hsplit⟩ := splitOn_cons_of_ne (Ne.symm hne) l
    rw [ih hl] at hpieces
    obtain ⟨rfl, rfl⟩ := List.cons.inj hpieces
    exact hsplit

/-- No piece holds a separator, and what a piece holds stood in the text. -/
theorem mem_piece {sep : Char} {l t : Text} (ht : t ∈ splitOn sep l) {ch : Char} (hch : ch ∈ t) :
    ch ≠ sep ∧ ch ∈ l := by
  induction l generalizing t with
  | nil =>
    obtain rfl : t = [] := by simpa using ht
    simp at hch
  | cons first l ih =>
    by_cases h : first = sep
    · subst h
      obtain rfl | ht := List.mem_cons.mp (splitOn_sep first l ▸ ht)
      · simp at hch
      · exact (ih ht hch).imp_right (List.mem_cons_of_mem _)
    · obtain ⟨piece, pieces, hl, hsplit⟩ := splitOn_cons_of_ne h l
      obtain rfl | ht := List.mem_cons.mp (hsplit ▸ ht)
      · obtain rfl | hch := List.mem_cons.mp hch
        · exact ⟨h, List.mem_cons_self⟩
        · exact (ih (by simp [hl]) hch).imp_right (List.mem_cons_of_mem _)
      · exact (ih (by simp [hl, ht]) hch).imp_right (List.mem_cons_of_mem _)

/-- Joined by the separator, the pieces give the text back. -/
theorem intercalate_splitOn (sep : Char) (l : Text) : [sep].intercalate (splitOn sep l) = l := by
  induction l with
  | nil => simp
  | cons ch l ih =>
    by_cases h : ch = sep
    · subst h
      rw [splitOn_sep, List.intercalate_cons_of_ne_nil (splitOn_ne_nil ch l), ih]
      rfl
    · obtain ⟨piece, pieces, hl, hsplit⟩ := splitOn_cons_of_ne h l
      rw [hl] at ih
      rw [hsplit]
      cases pieces with
      | nil => simpa using ih
      | cons next more =>
        rw [List.intercalate_cons_cons] at ih ⊢
        rw [← ih]
        rfl

/-- Settles O42: tokens are the pieces between the spaces of the line. -/
theorem tokensAreThePiecesBetweenSpaces : Obligations.TokensAreThePiecesBetweenSpaces := by
  intro l
  refine ⟨splitOn_ne_nil ' ' l, fun t ht hspace => ?_, intercalate_splitOn ' ' l⟩
  obtain ⟨notSeparator, _⟩ := mem_piece ht hspace
  exact notSeparator rfl

/-- Case folding does not move a space, so folding a line folds its tokens. -/
theorem tokens_lower (l : Line) : tokens (lower l) = (tokens l).map lower := by
  induction l with
  | nil => rfl
  | cons ch l ih =>
    have keepsSpace : lowerChar ch = ' ' ↔ ch = ' ' := lowerChar_eq_iff_of_not_letter (by decide)
    rw [lower_cons, tokens, tokens]
    by_cases h : ch = ' '
    · rw [keepsSpace.mpr h, h, splitOn_sep, splitOn_sep]
      exact congrArg ([] :: ·) ih
    · obtain ⟨piece, pieces, hl, hsplit⟩ := splitOn_cons_of_ne h l
      obtain ⟨piece', pieces', hl', hsplit'⟩ := splitOn_cons_of_ne (fun e => h (keepsSpace.mp e)) (lower l)
      rw [tokens, tokens, hl, hl', List.map_cons] at ih
      obtain ⟨rfl, rfl⟩ := List.cons.inj ih
      rw [hsplit, hsplit', List.map_cons, lower_cons]

/-- A line whose first token begins with a letter is not blank. -/
theorem isBlankLine_of_letter (c : Config) {l : Line} {token : Text} {rest : List Text} (ht : tokens l = token :: rest)
    {ch : Char} {t : Text} (hlower : lower token = ch :: t) (h : 97 ≤ ch.toNat) (h' : ch.toNat ≤ 122) :
    isBlankLine c l = false := by
  obtain ⟨first, more, rfl, rfl, _⟩ := List.map_eq_cons_iff.mp hlower
  obtain ⟨hascii, hblank⟩ := isAsciiBlank_of_letter h h'
  have inToken : first :: more ∈ splitOn ' ' l := by
    rw [← tokens, ht]
    exact List.mem_cons_self
  exact isBlankLine_false c l first (mem_piece inToken List.mem_cons_self).2 hascii hblank

/-! ### Lines of a text (R85) -/

theorem stripCr_eq (c : Config) (l : Line) :
    stripCr c l = if l.getLast? = some '\r' ∧ c.stripsCr = true then l.dropLast else l := by
  simp [stripCr]

theorem linesOfPieces_cons (c : Config) (piece : Text) {pieces : List Text} (h : pieces ≠ []) :
    linesOfPieces c (piece :: pieces) = stripCr c piece :: linesOfPieces c pieces := by
  cases pieces with
  | nil => exact absurd rfl h
  | cons next more => rfl

/-- Every piece but the last is a line without its carriage return; the last is a line as it stands unless empty. -/
theorem linesOfPieces_append_last (c : Config) (pieces : List Text) (last : Text) :
    linesOfPieces c (pieces ++ [last]) = pieces.map (stripCr c) ++ if last = [] then [] else [last] := by
  induction pieces with
  | nil => rfl
  | cons piece pieces ih => rw [List.cons_append, linesOfPieces_cons c piece (by simp), ih, List.map_cons, List.cons_append]

/-- Pieces with the separator after each, and a last piece without, are cut into just these. -/
theorem splitOn_flatMap_append {sep : Char} (pieces : List Text) {last : Text} (h : ∀ piece ∈ pieces, sep ∉ piece)
    (hlast : sep ∉ last) :
    splitOn sep ((pieces.flatMap fun piece => piece ++ [sep]) ++ last) = pieces ++ [last] := by
  induction pieces with
  | nil => exact splitOn_of_not_mem hlast
  | cons piece pieces ih =>
    obtain ⟨hpiece, hpieces⟩ := List.forall_mem_cons.mp h
    simp only [List.flatMap_cons, List.append_assoc, List.cons_append, List.nil_append]
    rw [splitOn_append_sep hpiece, ih hpieces]

/-- Settles O43: the line feeds cut the text into its pieces, and the pieces are made lines one by one. -/
theorem linesAreSplitAtLineFeeds : Obligations.LinesAreSplitAtLineFeeds := by
  intro c ls last hls hlast
  have cut : splitOn (Char.ofNat 10) ((ls.flatMap fun l => l ++ ['\n']) ++ last) = ls ++ [last] :=
    splitOn_flatMap_append ls hls hlast
  rw [splitLines, cut, linesOfPieces_append_last, funext (stripCr_eq c)]

end Sys2Proof.Machine
end

section
/-! SUPPORT. The operands and the Operand Validator (spec 30_encoding.md R94 to R102): which tokens name a symbol or a number,
and what the Validator accepts. -/

namespace Sys2Proof.Machine

/-! ### Symbols (R98, R99) -/

theorem registerOfToken_iff (t : Text) (r : Register) : registerOfToken t = some r ↔ lower t = spellRegister r := by
  refine ⟨fun h => ?_, fun h => by cases r <;> simp [registerOfToken, h, spellRegister]⟩
  unfold registerOfToken at h
  simp only at h
  split_ifs at h with ha hb hcc hd <;> cases h <;> assumption

theorem deviceOfToken_iff (t : Text) (d : Device) : deviceOfToken t = some d ↔ lower t = spellDevice d := by
  refine ⟨fun h => ?_, fun h => by cases d <;> simp [deviceOfToken, h, spellDevice]⟩
  unfold deviceOfToken at h
  simp only at h
  split_ifs at h with hcpu hkbd hscr hmth <;> cases h <;> assumption

theorem registerOperand_ok_iff (n : Nat) (t : Text) (r : Register) :
    registerOperand n t = .ok r ↔ lower t = spellRegister r := by
  rw [← registerOfToken_iff, registerOperand]
  cases registerOfToken t <;> simp

theorem deviceOperand_ok_iff (n : Nat) (t : Text) (d : Device) :
    deviceOperand n t = .ok d ↔ lower t = spellDevice d := by
  rw [← deviceOfToken_iff, deviceOperand]
  cases deviceOfToken t <;> simp

/-- A token whose folding is no register name is the error that carries the token. -/
theorem registerOperand_of_no_name (n : Nat) {t : Text} (h : ∀ r, lower t ≠ spellRegister r) :
    registerOperand n t = .error (.invalidRegister t n) := by
  obtain ⟨r, hr, _⟩ | ⟨_, h⟩ := registerOperand_cases n t
  · exact absurd ((registerOfToken_iff t r).mp hr) (h r)
  · exact h

theorem deviceOperand_of_no_name (n : Nat) {t : Text} (h : ∀ d, lower t ≠ spellDevice d) :
    deviceOperand n t = .error (.invalidDevice t n) := by
  obtain ⟨d, hd, _⟩ | ⟨_, h⟩ := deviceOperand_cases n t
  · exact absurd ((deviceOfToken_iff t d).mp hd) (h d)
  · exact h

theorem spellRegister_mem (r : Register) : spellRegister r ∈ [['r', 'a'], ['r', 'b'], ['r', 'c'], ['r', 'd']] := by
  cases r <;> decide

theorem spellDevice_mem (d : Device) :
    spellDevice d ∈ [['c', 'p', 'u'], ['k', 'b', 'd'], ['s', 'c', 'r'], ['m', 't', 'h']] := by
  cases d <;> decide

/-- Settles O37: a register operand is the register whose name the folded token is. -/
theorem registerTokens : Obligations.RegisterTokens := by
  intro n t
  have ok (r : Register) : lower t = spellRegister r → registerOperand n t = .ok r := (registerOperand_ok_iff n t r).mpr
  refine ⟨ok .ra, ok .rb, ok .rc, ok .rd, fun h => registerOperand_of_no_name n fun r hr => h ?_⟩
  rw [hr]
  exact spellRegister_mem r

/-- Settles O38: a device operand is the device whose name the folded token is. -/
theorem deviceTokens : Obligations.DeviceTokens := by
  intro n t
  have ok (d : Device) : lower t = spellDevice d → deviceOperand n t = .ok d := (deviceOperand_ok_iff n t d).mpr
  refine ⟨ok .cpu, ok .kbd, ok .scr, ok .mth, fun h => deviceOperand_of_no_name n fun d hd => h ?_⟩
  rw [hd]
  exact spellDevice_mem d

/-! ### Numbers (R96, R97) -/

theorem digitValue_of_digit {ch : Char} (h : '0' ≤ ch ∧ ch ≤ '9') :
    digitValue ch = some (ch.toNat - '0'.toNat) := by
  rw [char_le_iff, char_le_iff] at h
  exact if_pos h

theorem digitValue_of_no_digit {ch : Char} (h : ¬('0' ≤ ch ∧ ch ≤ '9')) : digitValue ch = none := by
  rw [char_le_iff, char_le_iff] at h
  exact if_neg h

theorem decimalFrom_of_digits (acc : Nat) {t : Text} (h : ∀ ch ∈ t, '0' ≤ ch ∧ ch ≤ '9') :
    decimalFrom acc t = some (t.foldl (fun acc ch => 10 * acc + (ch.toNat - '0'.toNat)) acc) := by
  induction t generalizing acc with
  | nil => rfl
  | cons ch t ih =>
    obtain ⟨hch, ht⟩ := List.forall_mem_cons.mp h
    rw [decimalFrom, digitValue_of_digit hch, List.foldl_cons, ← ih _ ht]

theorem decimalFrom_of_no_digit (acc : Nat) {t : Text} {ch : Char} (hmem : ch ∈ t) (h : ¬('0' ≤ ch ∧ ch ≤ '9')) :
    decimalFrom acc t = none := by
  induction t generalizing acc with
  | nil => simp at hmem
  | cons first t ih =>
    rw [decimalFrom]
    obtain rfl | hmem := List.mem_cons.mp hmem
    · rw [digitValue_of_no_digit h]
    · cases digitValue first with
      | none => rfl
      | some d => exact ih _ hmem

theorem decimalFrom_lower (acc : Nat) (t : Text) : decimalFrom acc (lower t) = decimalFrom acc t := by
  induction t generalizing acc with
  | nil => rfl
  | cons ch t ih =>
    rw [lower_cons, decimalFrom, decimalFrom, digitValue_lowerChar]
    cases digitValue ch with
    | none => rfl
    | some d => exact ih _

section
variable {c : Config} {t : Text}

/-- With a parser that has no limit, the value of a token is that of its digits. -/
theorem unsignedOfToken_of_unbounded (hc : c.parseLimit = none) (ht : t ≠ []) :
    unsignedOfToken c t = decimalFrom 0 t := by
  obtain ⟨ch, rest, rfl⟩ := List.exists_cons_of_ne_nil ht
  rw [unsignedOfToken, hc]
  cases decimalFrom 0 (ch :: rest) <;> rfl

/-- A parser that holds the small values reads them. -/
theorem unsignedOfToken_of_small (hc : c.ParsesSmall) (ht : t ≠ []) {v : Nat} (hv : v ≤ 32)
    (h : decimalFrom 0 t = some v) : unsignedOfToken c t = some v := by
  obtain ⟨ch, rest, rfl⟩ := List.exists_cons_of_ne_nil ht
  rw [unsignedOfToken, h]
  cases hlimit : c.parseLimit with
  | none => rfl
  | some limit => exact if_pos (hv.trans (hc limit hlimit))

theorem unsignedOfToken_lower (c : Config) (t : Text) : unsignedOfToken c (lower t) = unsignedOfToken c t := by
  cases t with
  | nil => rfl
  | cons ch rest => simp only [unsignedOfToken, lower_cons, ← decimalFrom_lower 0 (ch :: rest)]

theorem integerOperand_of_none (max n : Nat) (h : unsignedOfToken c t = none) :
    integerOperand c max n t = .error (.invalidInteger t n) := by
  rw [integerOperand, h]

theorem integerOperand_of_large {max v : Nat} (n : Nat) (h : unsignedOfToken c t = some v) (hv : max < v) :
    integerOperand c max n t = .error (.integerTooLarge v max n) := by
  rw [integerOperand, h]
  exact dif_neg (by omega)

theorem integerOperand_ok_iff {max : Nat} (n : Nat) (v : Fin (max + 1)) :
    integerOperand c max n t = .ok v ↔ unsignedOfToken c t = some v.val := by
  obtain ⟨hnone, h⟩ | ⟨w, hw, hsome, h⟩ | ⟨w, hw, hsome, h⟩ := integerOperand_cases c max n t
  · simp [hnone, h]
  · simp [hsome, h, Fin.ext_iff]
  · have : w ≠ v.val := by omega
    simp [hsome, h, this]

end

/-! ### Errors of the Validator, category by category (R95 to R102) -/

/-- How many operand tokens an opcode takes (R94). -/
def operandCount (o : Opcode) : Nat :=
  match o.category with
  | .immediate => 1
  | .registerPair => 2
  | .memoryAddress => 1
  | .ioOperation => 2

section
variable (c : Config) {n : Nat} {o : Opcode} (flag : Bool) {rest : List Text}

theorem oneOperand_of_short (h : rest.length < 1) (field : Text → Except AsmError Instr) :
    oneOperand n rest field = .error (.lineTooShort n) := by
  obtain ⟨_, h⟩ | ⟨_, rfl, _⟩ | ⟨hlong, _⟩ := oneOperand_cases n rest field
  · exact h
  · simp at h
  · omega

theorem oneOperand_of_long (h : 1 < rest.length) (field : Text → Except AsmError Instr) :
    oneOperand n rest field = .error (.lineTooLong n) := by
  obtain ⟨hshort, _⟩ | ⟨_, rfl, _⟩ | ⟨_, h⟩ := oneOperand_cases n rest field
  · omega
  · simp at h
  · exact h

theorem twoOperands_of_short (h : rest.length < 2) (fields : Text → Text → Except AsmError Instr) :
    twoOperands n rest fields = .error (.lineTooShort n) := by
  obtain ⟨_, h⟩ | ⟨_, _, rfl, _⟩ | ⟨hlong, _⟩ := twoOperands_cases n rest fields
  · exact h
  · simp at h
  · omega

theorem twoOperands_of_long (h : 2 < rest.length) (fields : Text → Text → Except AsmError Instr) :
    twoOperands n rest fields = .error (.lineTooLong n) := by
  obtain ⟨hshort, _⟩ | ⟨_, _, rfl, _⟩ | ⟨_, h⟩ := twoOperands_cases n rest fields
  · omega
  · simp at h
  · exact h

theorem validate_of_short (h : rest.length < operandCount o) : validate c n o flag rest = .error (.lineTooShort n) := by
  cases o with
  | adi | jne | jg | jl => exact oneOperand_of_short h _
  | add | sub | ioi | ior => exact twoOperands_of_short h _

theorem validate_of_long (h : operandCount o < rest.length) : validate c n o flag rest = .error (.lineTooLong n) := by
  cases o with
  | adi | jne | jg | jl => exact oneOperand_of_long h _
  | add | sub | ioi | ior => exact twoOperands_of_long h _

variable {t u : Text} {e : AsmError}

theorem validate_adi_error (h : integerOperand c 31 n t = .error e) : validate c n .adi flag [t] = .error e := by
  simp only [validate, oneOperand, immediateFields, h]

theorem validate_jump_error (ho : o ∈ [Opcode.jne, .jg, .jl]) (h : integerOperand c 16 n t = .error e) :
    validate c n o flag [t] = .error e := by
  obtain rfl | rfl | rfl : o = .jne ∨ o = .jg ∨ o = .jl := by simpa using ho
  all_goals simp only [validate, oneOperand, memoryAddressFields, h]

theorem validate_source_error (ho : o ∈ [Opcode.add, .sub]) (h : registerOperand n t = .error e) :
    validate c n o flag [t, u] = .error e := by
  obtain rfl | rfl : o = .add ∨ o = .sub := by simpa using ho
  all_goals simp only [validate, twoOperands, registerPairFields, h]

theorem validate_destination_error (ho : o ∈ [Opcode.add, .sub]) {r : Register} (ht : registerOperand n t = .ok r)
    (h : registerOperand n u = .error e) : validate c n o flag [t, u] = .error e := by
  obtain rfl | rfl : o = .add ∨ o = .sub := by simpa using ho
  all_goals simp only [validate, twoOperands, registerPairFields, ht, h]

theorem validate_device_error (ho : o ∈ [Opcode.ioi, .ior]) (h : deviceOperand n t = .error e) :
    validate c n o flag [t, u] = .error e := by
  obtain rfl | rfl : o = .ioi ∨ o = .ior := by simpa using ho
  all_goals simp only [validate, twoOperands, ioFields, h]

theorem validate_function_error (ho : o ∈ [Opcode.ioi, .ior]) {d : Device} (ht : deviceOperand n t = .ok d)
    (h : integerOperand c 7 n u = .error e) : validate c n o flag [t, u] = .error e := by
  obtain rfl | rfl : o = .ioi ∨ o = .ior := by simpa using ho
  all_goals simp only [validate, twoOperands, ioFields, ht, h]

end

/-- Settles O39: the fields are read from left to right, and each category reports the first that fails. -/
theorem leftmostBadOperandIsReported : Obligations.LeftmostBadOperandIsReported := by
  intro c n flag t u
  refine ⟨fun e h => ⟨?_, ?_⟩, fun e h => ⟨?_, ?_⟩, fun r ht hu => ?_, fun d ht => ⟨fun e h => ⟨?_, ?_⟩, fun hu => ?_⟩⟩
  · exact validate_source_error c flag (by simp) h
  · exact validate_source_error c flag (by simp) h
  · exact validate_device_error c flag (by simp) h
  · exact validate_device_error c flag (by simp) h
  · have bad : registerOperand n u = .error (.invalidRegister u n) :=
      registerOperand_of_no_name n fun s hs => hu (hs ▸ spellRegister_mem s)
    exact ⟨validate_destination_error c flag (by simp) ht bad, validate_destination_error c flag (by simp) ht bad⟩
  · exact validate_function_error c flag (by simp) ht h
  · exact validate_function_error c flag (by simp) ht h
  · have bad : integerOperand c 7 n u = .error (.invalidInteger u n) := integerOperand_of_none 7 n hu
    exact ⟨validate_function_error c flag (by simp) ht bad, validate_function_error c flag (by simp) ht bad⟩

theorem deviceOperand_of_some {u : Text} {d : Device} (h : deviceOfToken u = some d) (n : Nat) :
    deviceOperand n u = .ok d := by
  rw [deviceOperand, h]

/-- Settles O36: digits fold to their base-ten value, and any other character, or no character at all, is no number. -/
theorem integersAreUnsignedDecimal : Obligations.IntegersAreUnsignedDecimal := by
  refine fun c hc => ⟨fun t ht hdigits => ?_, fun t ht n flag => ?_⟩
  · rw [unsignedOfToken_of_unbounded hc ht, decimalFrom_of_digits 0 hdigits]
  · have noNumber : unsignedOfToken c t = none := by
      obtain rfl | ⟨ch, hmem, hch⟩ := ht
      · rfl
      · rw [unsignedOfToken_of_unbounded hc (List.ne_nil_of_mem hmem), decimalFrom_of_no_digit 0 hmem hch]
    have bad (max : Nat) := integerOperand_of_none max n noNumber
    refine ⟨bad, fun o ho => ?_, fun u d hu o ho => ?_⟩
    · obtain rfl | ho := List.mem_cons.mp ho
      · exact validate_adi_error c flag (bad 31)
      · exact validate_jump_error c flag ho (bad 16)
    · exact validate_function_error c flag ho (deviceOperand_of_some hu n) (bad 7)

/-! ### What the Validator accepts (R94, R100, R101) -/

/-- The tokens after the mnemonic are operands of the instruction under the suffix flag: the shapes with a flag take it
unchanged, the others drop it (R100). -/
def OperandsSpell (c : Config) (flag : Bool) (rest : List Text) : Instr → Prop
  | .adi v => ∃ t, rest = [t] ∧ unsignedOfToken c t = some v.val
  | .add f s d | .sub f s d => f = flag ∧ ∃ t u, rest = [t, u] ∧ lower t = spellRegister s ∧ lower u = spellRegister d
  | .jne f a | .jg f a | .jl f a => f = flag ∧ ∃ t, rest = [t] ∧ unsignedOfToken c t = some a.val
  | .ioi v f | .ior v f => ∃ t u, rest = [t, u] ∧ lower t = spellDevice v ∧ unsignedOfToken c u = some f.val
  | .hlt => False

theorem oneOperand_ok_iff (n : Nat) (rest : List Text) (field : Text → Except AsmError Instr) (i : Instr) :
    oneOperand n rest field = .ok i ↔ ∃ t, rest = [t] ∧ field t = .ok i := by
  obtain ⟨hlen, h⟩ | ⟨t, rfl, h⟩ | ⟨hlen, h⟩ := oneOperand_cases n rest field <;> rw [h]
  · refine ⟨nofun, ?_⟩
    rintro ⟨t, rfl, _⟩
    simp at hlen
  · simp
  · refine ⟨nofun, ?_⟩
    rintro ⟨t, rfl, _⟩
    simp at hlen

theorem twoOperands_ok_iff (n : Nat) (rest : List Text) (fields : Text → Text → Except AsmError Instr) (i : Instr) :
    twoOperands n rest fields = .ok i ↔ ∃ t u, rest = [t, u] ∧ fields t u = .ok i := by
  obtain ⟨hlen, h⟩ | ⟨t, u, rfl, h⟩ | ⟨hlen, h⟩ := twoOperands_cases n rest fields <;> rw [h]
  · refine ⟨nofun, ?_⟩
    rintro ⟨t, u, rfl, _⟩
    simp at hlen
  · simp
  · refine ⟨nofun, ?_⟩
    rintro ⟨t, u, rfl, _⟩
    simp at hlen

/-- The Validator answers the instructions of its opcode that the tokens are operands of. -/
theorem validate_ok_iff (c : Config) (n : Nat) (o : Opcode) (flag : Bool) (rest : List Text) (i : Instr) :
    validate c n o flag rest = .ok i ↔ i.opcode = o ∧ OperandsSpell c flag rest i := by
  constructor
  · intro h
    cases o with
    | adi =>
      obtain ⟨t, rfl, h⟩ := (oneOperand_ok_iff ..).mp h
      obtain ⟨v, hv, rfl⟩ := (immediateFields_ok ..).mp h
      exact ⟨rfl, t, rfl, (integerOperand_ok_iff n v).mp hv⟩
    | add | sub =>
      obtain ⟨t, u, rfl, h⟩ := (twoOperands_ok_iff ..).mp h
      obtain ⟨s, d, hs, hd, rfl⟩ := (registerPairFields_ok ..).mp h
      exact ⟨rfl, rfl, t, u, rfl, (registerOperand_ok_iff ..).mp hs, (registerOperand_ok_iff ..).mp hd⟩
    | jne | jg | jl =>
      obtain ⟨t, rfl, h⟩ := (oneOperand_ok_iff ..).mp h
      obtain ⟨a, ha, rfl⟩ := (memoryAddressFields_ok ..).mp h
      exact ⟨rfl, rfl, t, rfl, (integerOperand_ok_iff n a).mp ha⟩
    | ioi | ior =>
      obtain ⟨t, u, rfl, h⟩ := (twoOperands_ok_iff ..).mp h
      obtain ⟨v, f, hv, hf, rfl⟩ := (ioFields_ok ..).mp h
      exact ⟨rfl, t, u, rfl, (deviceOperand_ok_iff ..).mp hv, (integerOperand_ok_iff n f).mp hf⟩
  · rintro ⟨rfl, h⟩
    cases i with
    | adi v =>
      obtain ⟨t, rfl, hv⟩ := h
      exact (immediateFields_ok ..).mpr ⟨v, (integerOperand_ok_iff n v).mpr hv, rfl⟩
    | add f s d | sub f s d =>
      obtain ⟨rfl, t, u, rfl, hs, hd⟩ := h
      exact (registerPairFields_ok ..).mpr
        ⟨s, d, (registerOperand_ok_iff ..).mpr hs, (registerOperand_ok_iff ..).mpr hd, rfl⟩
    | jne f a | jg f a | jl f a =>
      obtain ⟨rfl, t, rfl, ha⟩ := h
      exact (memoryAddressFields_ok ..).mpr ⟨a, (integerOperand_ok_iff n a).mpr ha, rfl⟩
    | ioi v f | ior v f =>
      obtain ⟨t, u, rfl, hv, hf⟩ := h
      exact (ioFields_ok ..).mpr ⟨v, f, (deviceOperand_ok_iff ..).mpr hv, (integerOperand_ok_iff n f).mpr hf, rfl⟩
    | hlt => exact h.elim

/-- Folding the tokens changes nothing of what they are operands of. -/
theorem operandsSpell_of_lower_eq {c : Config} {flag : Bool} {rest rest' : List Text} {i : Instr}
    (same : rest.map lower = rest'.map lower) (h : OperandsSpell c flag rest i) : OperandsSpell c flag rest' i := by
  have one {t : Text} (e : [t].map lower = rest'.map lower) : ∃ t', rest' = [t'] ∧ lower t' = lower t := by
    simpa [eq_comm, List.map_eq_singleton_iff] using e
  have two {t u : Text} (e : [t, u].map lower = rest'.map lower) :
      ∃ t' u', rest' = [t', u'] ∧ lower t' = lower t ∧ lower u' = lower u := by
    obtain ⟨t', more, rfl, ht, e⟩ := List.map_eq_cons_iff.mp e.symm
    obtain ⟨u', _, rfl, hu, e⟩ := List.map_eq_cons_iff.mp e
    obtain rfl := List.map_eq_nil_iff.mp e
    exact ⟨t', u', rfl, ht, hu⟩
  have number {t t' : Text} (e : lower t' = lower t) : unsignedOfToken c t' = unsignedOfToken c t := by
    rw [← unsignedOfToken_lower c t', e, unsignedOfToken_lower]
  cases i with
  | adi v =>
    obtain ⟨t, rfl, hv⟩ := h
    obtain ⟨t', rfl, ht⟩ := one same
    exact ⟨t', rfl, (number ht).trans hv⟩
  | add f s d | sub f s d =>
    obtain ⟨rfl, t, u, rfl, hs, hd⟩ := h
    obtain ⟨t', u', rfl, ht, hu⟩ := two same
    exact ⟨rfl, t', u', rfl, ht.trans hs, hu.trans hd⟩
  | jne f a | jg f a | jl f a =>
    obtain ⟨rfl, t, rfl, ha⟩ := h
    obtain ⟨t', rfl, ht⟩ := one same
    exact ⟨rfl, t', rfl, (number ht).trans ha⟩
  | ioi v f | ior v f =>
    obtain ⟨t, u, rfl, hv, hf⟩ := h
    obtain ⟨t', u', rfl, ht, hu⟩ := two same
    exact ⟨t', u', rfl, ht.trans hv, (number hu).trans hf⟩
  | hlt => exact h

/-- Settles O40: what the tokens are operands of names the flag in the two shapes that have one, and nowhere else. -/
theorem flagIsThreadedOrDropped : Obligations.FlagIsThreadedOrDropped := by
  intro c n o flag rest i h
  obtain ⟨ho, hread⟩ := (validate_ok_iff ..).mp h
  refine ⟨ho, i.raw_wellFormed, ?_⟩
  cases i with
  | adi v => exact (validate_ok_iff ..).mpr ⟨ho, hread⟩
  | ioi v f | ior v f => exact (validate_ok_iff ..).mpr ⟨ho, hread⟩
  | add f s d | sub f s d | jne f a | jg f a | jl f a =>
    obtain ⟨rfl, _⟩ := hread
    rfl
  | hlt => exact hread.elim

/-- Settles O35: a number in range is the operand of its instruction, a larger one is the integer operand's own error. -/
theorem rangeIsCheckedAgainstTheFieldMaximum : Obligations.RangeIsCheckedAgainstTheFieldMaximum := by
  intro c n flag t u v d hv hd
  have large {max : Nat} (h : max < v) := integerOperand_of_large n hv h
  have hdevice := (deviceOfToken_iff u d).mp hd
  refine ⟨fun h => ?_, fun h => ?_, fun h => ⟨?_, ?_, ?_⟩, fun h o ho => ?_, fun h => ⟨?_, ?_⟩, fun h o ho => ?_⟩
  · exact (validate_ok_iff ..).mpr ⟨rfl, t, rfl, hv⟩
  · exact validate_adi_error c flag (large h)
  · exact (validate_ok_iff ..).mpr ⟨rfl, rfl, t, rfl, hv⟩
  · exact (validate_ok_iff ..).mpr ⟨rfl, rfl, t, rfl, hv⟩
  · exact (validate_ok_iff ..).mpr ⟨rfl, rfl, t, rfl, hv⟩
  · exact validate_jump_error c flag ho (large h)
  · exact (validate_ok_iff ..).mpr ⟨rfl, u, t, rfl, hdevice, hv⟩
  · exact (validate_ok_iff ..).mpr ⟨rfl, u, t, rfl, hdevice, hv⟩
  · exact validate_function_error c flag ho (deviceOperand_of_some hd n) (large h)

end Sys2Proof.Machine
end

section
/-! SUPPORT. The Mnemonic Resolver and whole lines (spec 30_encoding.md R85 to R104): the table of mnemonics, and the lines
that read as an instruction. -/

namespace Sys2Proof.Machine

/-! ### The names of the opcodes (R89, R103) -/

/-- The name of an opcode, in lower case. -/
def opcodeName : Opcode → Text
  | .adi => ['a', 'd', 'i']
  | .add => ['a', 'd', 'd']
  | .sub => ['s', 'u', 'b']
  | .jne => ['j', 'n', 'e']
  | .jg => ['j', 'g']
  | .jl => ['j', 'l']
  | .ioi => ['i', 'o', 'i']
  | .ior => ['i', 'o', 'r']

theorem opcodeOfName_iff (t : Text) (o : Opcode) : opcodeOfName t = some o ↔ t = opcodeName o := by
  constructor
  · intro h
    unfold opcodeOfName at h
    split_ifs at h <;> cases h <;> assumption
  · rintro rfl
    cases o <;> rfl

theorem opcodeName_injective {o p : Opcode} (h : opcodeName o = opcodeName p) : o = p := by
  have found := (opcodeOfName_iff (opcodeName o) o).mpr rfl
  rw [(opcodeOfName_iff _ p).mpr h] at found
  exact (Option.some_inj.mp found).symm

/-- No name ends in the suffix, so stripping undoes spelling. -/
theorem stripSuffix_spellMnemonic (o : Opcode) (flag : Bool) :
    stripSuffix (spellMnemonic (opcodeName o) flag) = (opcodeName o, flag) := by
  cases o <;> cases flag <;> rfl

theorem eq_spellMnemonic_of_stripSuffix {t stem : Text} {flag : Bool} (h : stripSuffix t = (stem, flag)) :
    t = spellMnemonic stem flag := by
  obtain ⟨stem', rfl, hs⟩ | ⟨_, hs⟩ := stripSuffix_cases t
  all_goals
    obtain ⟨rfl, rfl⟩ := Prod.mk.inj (hs.symm.trans h)
    rfl

theorem spellMnemonic_injective {o p : Opcode} {flag flag' : Bool}
    (h : spellMnemonic (opcodeName o) flag = spellMnemonic (opcodeName p) flag') : o = p ∧ flag = flag' := by
  have stripped := stripSuffix_spellMnemonic o flag
  rw [h, stripSuffix_spellMnemonic] at stripped
  obtain ⟨hname, hflag⟩ := Prod.mk.inj stripped
  exact ⟨(opcodeName_injective hname).symm, hflag.symm⟩

theorem spellMnemonic_ne_hlt (o : Opcode) (flag : Bool) : spellMnemonic (opcodeName o) flag ≠ ['h', 'l', 't'] := by
  cases o <;> cases flag <;> decide

/-- Every spelling begins with a small letter. -/
theorem spellMnemonic_begins_with_letter (o : Opcode) (flag : Bool) :
    ∃ ch t, spellMnemonic (opcodeName o) flag = ch :: t ∧ 97 ≤ ch.toNat ∧ ch.toNat ≤ 122 := by
  cases o <;> cases flag <;> exact ⟨_, _, rfl, by decide, by decide⟩

theorem lower_spellMnemonic (o : Opcode) (flag : Bool) :
    lower (spellMnemonic (opcodeName o) flag) = spellMnemonic (opcodeName o) flag := by
  cases o <;> cases flag <;> rfl

/-! ### The Resolver (R89 to R93) -/

/-- The token, letter case ignored, is the mnemonic of the opcode with this suffix; `adip` is no mnemonic (R90). -/
def Names (token : Text) (o : Opcode) (flag : Bool) : Prop :=
  lower token = spellMnemonic (opcodeName o) flag ∧ ¬(o = .adi ∧ flag = true)

section
variable (n : Nat) {token : Text} (rest : List Text)

theorem resolveMnemonic_of_hlt (h : lower token = ['h', 'l', 't']) : resolveMnemonic n token rest = .ok .halt :=
  if_pos h

theorem resolveMnemonic_of_names {o : Opcode} {flag : Bool} (h : Names token o flag) :
    resolveMnemonic n token rest = .ok (.operation o flag rest) := by
  obtain ⟨hname, notAdip⟩ := h
  have notRefused : ¬(opcodeName o = ['a', 'd', 'i'] ∧ flag = true) :=
    fun ⟨ho, hflag⟩ => notAdip ⟨opcodeName_injective (p := .adi) ho, hflag⟩
  rw [resolveMnemonic, hname, if_neg (spellMnemonic_ne_hlt o flag), stripSuffix_spellMnemonic]
  simp only [notRefused, if_false, (opcodeOfName_iff _ o).mpr rfl]

theorem resolveMnemonic_of_no_name (hhlt : lower token ≠ ['h', 'l', 't']) (h : ∀ o flag, ¬ Names token o flag) :
    resolveMnemonic n token rest = .error (.invalidInstruction token n) := by
  rw [resolveMnemonic, if_neg hhlt]
  rcases hs : stripSuffix (lower token) with ⟨stem, flag⟩
  have spelled := eq_spellMnemonic_of_stripSuffix hs
  simp only
  split_ifs with hadip
  · rfl
  · cases ho : opcodeOfName stem with
    | none => rfl
    | some o =>
      obtain rfl := (opcodeOfName_iff stem o).mp ho
      refine absurd ⟨spelled, ?_⟩ (h o flag)
      rintro ⟨rfl, hflag⟩
      exact hadip ⟨rfl, hflag⟩

/-- The Resolver's three answers, and the tokens that have each: `hlt`, a mnemonic, and any other token. -/
theorem resolveMnemonic_table_cases (n : Nat) (token : Text) (rest : List Text) :
    (lower token = ['h', 'l', 't'] ∧ resolveMnemonic n token rest = .ok .halt) ∨
      (∃ o flag, Names token o flag ∧ resolveMnemonic n token rest = .ok (.operation o flag rest)) ∨
      (lower token ≠ ['h', 'l', 't'] ∧ (∀ o flag, ¬ Names token o flag) ∧
        resolveMnemonic n token rest = .error (.invalidInstruction token n)) := by
  by_cases hhlt : lower token = ['h', 'l', 't']
  · exact .inl ⟨hhlt, resolveMnemonic_of_hlt n rest hhlt⟩
  · by_cases named : ∃ o flag, Names token o flag
    · obtain ⟨o, flag, h⟩ := named
      exact .inr (.inl ⟨o, flag, h, resolveMnemonic_of_names n rest h⟩)
    · have noName (o : Opcode) (flag : Bool) (h : Names token o flag) : False := named ⟨o, flag, h⟩
      exact .inr (.inr ⟨hhlt, noName, resolveMnemonic_of_no_name n rest hhlt noName⟩)

variable {n rest}

theorem names_of_resolve {o : Opcode} {flag : Bool} {operands : List Text}
    (h : resolveMnemonic n token rest = .ok (.operation o flag operands)) : Names token o flag ∧ operands = rest := by
  obtain ⟨_, h'⟩ | ⟨_, _, hnames, h'⟩ | ⟨_, _, h'⟩ := resolveMnemonic_table_cases n token rest <;>
    cases h'.symm.trans h
  exact ⟨hnames, rfl⟩

end

/-! ### Whole lines (R102, R104) -/

/-- What the Validator's answer makes of a line. -/
def answerLine : Except AsmError Instr → LineResult
  | .ok i => .instr i
  | .error e => .error e

section
variable (c : Config) (n : Nat) {l : Line} {token : Text} {rest : List Text} (ht : tokens l = token :: rest)
include ht

theorem readLine_of_resolve_error (hblank : isBlankLine c l = false) {e : AsmError}
    (h : resolveMnemonic n token rest = .error e) : readLine c n l = .error e := by
  simp only [readLine, hblank, ht, resolve, h]
  rfl

theorem readLine_of_hlt (h : lower token = ['h', 'l', 't']) : readLine c n l = .instr .hlt := by
  have hblank := isBlankLine_of_letter c ht h (by decide) (by decide)
  simp only [readLine, hblank, ht, resolve, resolveMnemonic_of_hlt n rest h]
  rfl

theorem readLine_of_names {o : Opcode} {flag : Bool} (h : Names token o flag) :
    readLine c n l = answerLine (validate c n o flag rest) := by
  obtain ⟨ch, t, hspelled, hlow, hhigh⟩ := spellMnemonic_begins_with_letter o flag
  have hblank := isBlankLine_of_letter c ht (h.1.trans hspelled) hlow hhigh
  simp only [readLine, hblank, ht, resolve, resolveMnemonic_of_names n rest h]
  cases validate c n o flag rest <;> rfl

end

/-- The lines that read as an instruction: `hlt`, and a mnemonic of its opcode followed by its operands. -/
theorem readLine_instr_iff (c : Config) (n : Nat) (l : Line) (i : Instr) :
    readLine c n l = .instr i ↔ ∃ token rest, tokens l = token :: rest ∧
      ((lower token = ['h', 'l', 't'] ∧ i = .hlt) ∨ ∃ flag, Names token i.opcode flag ∧ OperandsSpell c flag rest i) := by
  constructor
  · intro h
    obtain ⟨token, rest, ht⟩ := List.exists_cons_of_ne_nil (splitOn_ne_nil ' ' l)
    refine ⟨token, rest, ht, ?_⟩
    obtain ⟨hhlt, _⟩ | ⟨o, flag, hnames, _⟩ | ⟨_, _, herror⟩ := resolveMnemonic_table_cases n token rest
    · cases (readLine_of_hlt c n ht hhlt).symm.trans h
      exact .inl ⟨hhlt, rfl⟩
    · rw [readLine_of_names c n ht hnames] at h
      cases hv : validate c n o flag rest with
      | error e => cases hv ▸ h
      | ok j =>
        cases hv ▸ h
        obtain ⟨rfl, hspell⟩ := (validate_ok_iff ..).mp hv
        exact .inr ⟨flag, hnames, hspell⟩
    · cases hblank : isBlankLine c l with
      | true => cases (readLine_of_blank n hblank).symm.trans h
      | false => cases (readLine_of_resolve_error c n ht hblank herror).symm.trans h
  · rintro ⟨token, rest, ht, ⟨hhlt, rfl⟩ | ⟨flag, hnames, hspell⟩⟩
    · exact readLine_of_hlt c n ht hhlt
    · rw [readLine_of_names c n ht hnames, (validate_ok_iff ..).mpr ⟨rfl, hspell⟩, answerLine]

/-- Settles O54: blank characters by their codes, and a line that is not blank by the three answers of the Resolver. -/
theorem lineIsResolverThenValidator : Obligations.LineIsResolverThenValidator := by
  intro c n l
  refine ⟨isBlankLine_iff c l, rfl, fun ch h => ?_, fun ch => isBlankChar_of_beyond c, readLine_of_blank n, fun hblank => ?_⟩
  · rw [isBlankChar_of_ascii c h, isAsciiBlank_iff_mem]
  · obtain ⟨token, rest, ht⟩ := List.exists_cons_of_ne_nil (splitOn_ne_nil ' ' l)
    refine ⟨token, rest, ht, ?_⟩
    obtain ⟨hhlt, h⟩ | ⟨o, flag, hnames, h⟩ | ⟨_, _, h⟩ := resolveMnemonic_table_cases n token rest <;> rw [h]
    · exact readLine_of_hlt c n ht hhlt
    · have answered := readLine_of_names c n ht hnames
      refine ⟨rfl, ?_⟩
      cases hv : validate c n o flag rest <;> exact answered.trans (congrArg answerLine hv)
    · exact readLine_of_resolve_error c n ht hblank h

/-- Settles O31: the table's rows are the mnemonics of the opcodes, and what is not in it is neither `hlt` nor a mnemonic. -/
theorem mnemonicTable : Obligations.MnemonicTable := by
  refine fun n token rest => ⟨fun h => ?_, fun row hrow h => ?_, fun h => ?_⟩
  · exact ⟨resolveMnemonic_of_hlt n rest h, fun c l ht => readLine_of_hlt c n ht h⟩
  · have spelled : row.1 = spellMnemonic (opcodeName row.2.1) row.2.2 ∧ ¬(row.2.1 = .adi ∧ row.2.2 = true) := by
      clear h
      revert row
      decide
    have hnames : Names token row.2.1 row.2.2 := spelled.imp_left h.trans
    refine ⟨resolveMnemonic_of_names n rest hnames, fun c l ht => ?_⟩
    rw [readLine_of_names c n ht hnames]
    exact ⟨fun i hv => congrArg answerLine hv, fun e hv => congrArg answerLine hv⟩
  · have notHlt : lower token ≠ ['h', 'l', 't'] := fun hhlt => h (by simp [hhlt])
    have noName (o : Opcode) (flag : Bool) (hnames : Names token o flag) : False := by
      obtain ⟨hspelled, notAdip⟩ := hnames
      rw [hspelled] at h
      cases o <;> cases flag <;> simp [spellMnemonic, opcodeName] at h notAdip
    have herror := resolveMnemonic_of_no_name n rest notHlt noName
    exact ⟨herror, fun c l ht hblank => readLine_of_resolve_error c n ht hblank herror⟩

/-- Settles O32: `adip` is no mnemonic, and a line that begins with a letter is not blank. -/
theorem adipIsRefused : Obligations.AdipIsRefused := by
  intro c n l token rest ht h
  have noName (o : Opcode) (flag : Bool) (hnames : Names token o flag) : False := by
    obtain ⟨hspelled, notAdip⟩ := hnames
    exact notAdip (spellMnemonic_injective (p := .adi) (flag' := true) (hspelled.symm.trans h))
  exact readLine_of_resolve_error c n ht (isBlankLine_of_letter c ht h (by decide) (by decide))
    (resolveMnemonic_of_no_name n rest (by simp [h]) noName)

/-- Settles O33: `hlt` is complete at its first token, and its byte is that of its expansion. -/
theorem hltLineIgnoresItsRest : Obligations.HltLineIgnoresItsRest := by
  intro c n l token rest ht h
  exact ⟨readLine_of_hlt c n ht h, (encodeWith_expand c .hlt).symm⟩

/-- Settles O34: the Validator counts the tokens first, and its answer is the line's. -/
theorem arityBeforeFields : Obligations.ArityBeforeFields := by
  intro c n o flag rest need hneed
  obtain rfl : need = operandCount o := hneed
  have line {e : AsmError} (he : validate c n o flag rest = .error e) (l : Line) (token : Text)
      (ht : tokens l = token :: rest) (h : resolveMnemonic n token rest = .ok (.operation o flag rest)) :
      readLine c n l = .error e := by
    rw [readLine_of_names c n ht (names_of_resolve h).1, he, answerLine]
  refine ⟨fun h => ?_, fun h => ?_⟩
  · exact ⟨validate_of_short c flag h, line (validate_of_short c flag h)⟩
  · exact ⟨validate_of_long c flag h, line (validate_of_long c flag h)⟩

/-! ### Letter case (R88) -/

/-- Settles O41: folded, the two lines have the same tokens, and neither mnemonic nor operands depend on more. -/
theorem letterCaseDoesNotMatter : Obligations.LetterCaseDoesNotMatter := by
  refine ⟨fun c n l l' i hl h => ?_, fun ch h => ?_, fun ch h h' => ?_⟩
  · obtain ⟨token, rest, ht, hread⟩ := (readLine_instr_iff ..).mp h
    have folded : (tokens l').map lower = lower token :: rest.map lower := by
      rw [← tokens_lower, ← hl, tokens_lower, ht, List.map_cons]
    obtain ⟨token', rest', ht', htoken, hrest⟩ := List.map_eq_cons_iff.mp folded
    refine (readLine_instr_iff ..).mpr ⟨token', rest', ht', ?_⟩
    obtain ⟨hhlt, hi⟩ | ⟨flag, ⟨hname, notAdip⟩, hspell⟩ := hread
    · exact .inl ⟨htoken.trans hhlt, hi⟩
    · exact .inr ⟨flag, ⟨htoken.trans hname, notAdip⟩, operandsSpell_of_lower_eq hrest.symm hspell⟩
  · rw [char_le_iff, char_le_iff] at h
    exact lowerChar_of_not_upper h
  · rw [char_le_iff] at h h'
    exact lowerChar_of_upper ⟨h, h'⟩

/-! ### Spelled instructions read back (R94, R103) -/

theorem space_not_mem_spellMnemonic (o : Opcode) (flag : Bool) : ' ' ∉ spellMnemonic (opcodeName o) flag := by
  cases o <;> cases flag <;> decide

@[simp] theorem lower_spellRegister (r : Register) : lower (spellRegister r) = spellRegister r := by
  cases r <;> rfl

@[simp] theorem lower_spellDevice (d : Device) : lower (spellDevice d) = spellDevice d := by
  cases d <;> rfl

theorem space_not_mem_spellRegister (r : Register) : ' ' ∉ spellRegister r := by
  cases r <;> decide

theorem space_not_mem_spellDevice (d : Device) : ' ' ∉ spellDevice d := by
  cases d <;> decide

/-- A spelled number below 32 is a number of the front end and no separator. -/
theorem spellNat_reads_back : ∀ v < 32, spellNat v ≠ [] ∧ ' ' ∉ spellNat v ∧ decimalFrom 0 (spellNat v) = some v := by
  decide

theorem unsignedOfToken_spellNat {c : Config} (hc : c.ParsesSmall) {v : Nat} (hv : v < 32) :
    unsignedOfToken c (spellNat v) = some v := by
  obtain ⟨hne, _, hvalue⟩ := spellNat_reads_back v hv
  exact unsignedOfToken_of_small hc hne (by omega) hvalue

section
variable (c : Config) (n : Nat) {i : Instr} {flag : Bool} {a b : Text} (notAdip : ¬(i.opcode = .adi ∧ flag = true))
include notAdip

/-- A line of a mnemonic and one operand. -/
theorem readLine_of_one_operand (hline : spell i = spellMnemonic (opcodeName i.opcode) flag ++ ' ' :: a) (ha : ' ' ∉ a)
    (h : OperandsSpell c flag [a] i) : readLine c n (spell i) = .instr i := by
  refine (readLine_instr_iff ..).mpr ⟨_, [a], ?_, .inr ⟨flag, ⟨lower_spellMnemonic _ _, notAdip⟩, h⟩⟩
  rw [hline, tokens, splitOn_append_sep (space_not_mem_spellMnemonic _ _), splitOn_of_not_mem ha]

/-- A line of a mnemonic and two operands. -/
theorem readLine_of_two_operands (hline : spell i = spellMnemonic (opcodeName i.opcode) flag ++ ' ' :: a ++ ' ' :: b)
    (ha : ' ' ∉ a) (hb : ' ' ∉ b) (h : OperandsSpell c flag [a, b] i) : readLine c n (spell i) = .instr i := by
  refine (readLine_instr_iff ..).mpr ⟨_, [a, b], ?_, .inr ⟨flag, ⟨lower_spellMnemonic _ _, notAdip⟩, h⟩⟩
  rw [hline, List.append_assoc, List.cons_append, tokens, splitOn_append_sep (space_not_mem_spellMnemonic _ _),
    splitOn_append_sep ha, splitOn_of_not_mem hb]

end

/-- Settles O44: each shape is spelled as its mnemonic and its operands, all of them without a space. -/
theorem spelledInstructionReadsBack : Obligations.SpelledInstructionReadsBack := by
  intro c hc n i
  have number {v : Nat} (hv : v < 32) := unsignedOfToken_spellNat hc hv
  have noSpace {v : Nat} (hv : v < 32) : ' ' ∉ spellNat v := (spellNat_reads_back v hv).2.1
  cases i with
  | adi v =>
    exact readLine_of_one_operand c n (flag := false) (by simp) rfl (noSpace v.isLt) ⟨_, rfl, number v.isLt⟩
  | add f s d | sub f s d =>
    exact readLine_of_two_operands c n (by simp [Instr.opcode]) rfl (space_not_mem_spellRegister s)
      (space_not_mem_spellRegister d) ⟨rfl, _, _, rfl, lower_spellRegister s, lower_spellRegister d⟩
  | jne f a | jg f a | jl f a =>
    have ha : a.val < 32 := by omega
    exact readLine_of_one_operand c n (by simp [Instr.opcode]) rfl (noSpace ha) ⟨rfl, _, rfl, number ha⟩
  | ioi v f | ior v f =>
    have hf : f.val < 32 := by omega
    exact readLine_of_two_operands c n (flag := false) (by simp) rfl (space_not_mem_spellDevice v) (noSpace hf)
      ⟨_, _, rfl, lower_spellDevice v, number hf⟩
  | hlt => exact readLine_of_hlt c n (token := ['h', 'l', 't']) rfl rfl

end Sys2Proof.Machine
end

section
/-! SUPPORT. A line that reads as an instruction under the step, and a whole run as the spec's loop over the lines of its text
and then the write (spec 30_encoding.md R104, 20_memory.md R41, R50, 60_exceptions.md R183, R187). -/

namespace Sys2Proof.Machine

/-! ### The step on an instruction's line -/

/-- Settles O21: the step takes the line, and the line is the instruction. -/
theorem stepRunsTheInstructionOfTheLine : Obligations.StepRunsTheInstructionOfTheLine := by
  intro s l i hp hf hr
  rw [step_of_line hp hf, stepLine, hr, advanceLine]

/-- The word of a byte decodes to an instruction that encodes to it. -/
theorem exists_instr_of_word {w : Nat} (hw : w < 256) :
    ∃ i, decodeTableWord 8 w = some i ∧ encodeWith pactConfig i = BitVec.ofNat 8 w := by
  obtain ⟨_, i, hdecode, _, _, hencode⟩ :=
    everyByteIsOneInstruction pactConfig pactConfig_uniqueCodes (BitVec.ofNat 8 w)
  refine ⟨i, ?_, hencode⟩
  rw [decodeTableWord, Nat.mod_eq_of_lt (b := 2 ^ 8) hw, decode, hdecode]

/-- Settles O22: the byte's instruction is spelled where the step fetches, reads back, and encodes to the byte. -/
theorem placedWordRunsAndEmitsItself : Obligations.PlacedWordRunsAndEmitsItself := by
  intro s w hw
  obtain ⟨i, hdecode, hencode⟩ := exists_instr_of_word hw
  have hplaced : s.withFetchWord 8 w = placeInstr i s := by
    rw [State.withFetchWord, hdecode]
  have hstep : step (placeInstr i s) = exec i (advanceLine (placeInstr i s)) :=
    stepRunsTheInstructionOfTheLine _ _ _ (placeInstr_phase i s) (fetchLine_placeInstr i s)
      (spelledInstructionReadsBack pactConfig pactConfig_parsesSmall _ i)
  obtain ⟨t, hexec, hemitted⟩ := execEmitsTheEncoding i (advanceLine (placeInstr i s))
  rw [hplaced]
  exact ⟨i, t, hdecode, hstep, hstep.trans hexec, hencode ▸ hemitted.stored⟩

/-! ### The outcome of a whole run -/

/-- What an ended run shows when its text assembles to `result`: the error, or the image and the success line, or the error
of the final write to `path`. -/
def ShowsResult (path : String) (w : Option IoCause) (result : Except AsmError (List Byte)) (t : State) : Prop :=
  match result, w with
  | .error e, _ =>
    t.error = some e ∧ t.image = none ∧ t.exitStatus = some 1 ∧ t.stdout = [] ∧
      ∃ message, t.stderr = ["failed to parse file: " ++ message]
  | .ok bytes, none =>
    t.error = none ∧ t.image = some (Memory.ofBytes 0 (pactConfig.magicBytes ++ bytes)) ∧ t.exitStatus = some 0 ∧
      t.stderr = [] ∧
      t.stdout = ["wrote " ++ toString (pactConfig.magicBytes.length + bytes.length) ++ " bytes to " ++ path]
  | .ok _, some cause =>
    t.error = some (.ioError cause) ∧ t.image = none ∧ t.exitStatus = some 1 ∧ t.stdout = [] ∧
      ∃ message, t.stderr = ["failed to write to file '" ++ path ++ "': " ++ message]

/-- A line in error shows that error (R183). -/
theorem showsResult_abortLine (c : Config) (path : String) (w : Option IoCause) (e : AsmError) {s : State}
    (h : Unseen s) : ShowsResult path w (.error e) (abortLine c e s) := by
  obtain ⟨_, _, hstdout, hstderr, _⟩ := h
  exact ⟨rfl, rfl, rfl, hstdout, _, congrArg (· ++ _) hstderr⟩

/-- The commit shows the image of the program's bytes, or the error of the write (R50, R183, R187). -/
theorem showsResult_commit {s : State} (hinv : RunInv s) (h : Unseen s) :
    ShowsResult (outputPath s) s.writeFailure (.ok (s.program.map (encodeWith pactConfig))) (commit pactConfig s) := by
  obtain ⟨_, herror, hstdout, hstderr, _⟩ := h
  obtain ⟨cause, hw, hc⟩ | ⟨hw, hc⟩ := commit_cases pactConfig s <;> rw [hw, hc]
  · exact ⟨rfl, rfl, rfl, hstdout, _, congrArg (· ++ _) hstderr⟩
  · refine ⟨herror, ?_, rfl, hstderr, ?_⟩
    · rw [succeed_image, fileImage_eq_imageOf hinv.body hinv.slot, imageOf]
    · rw [succeed_stdout, hstdout, imageSize, hinv.slot, List.length_map, List.nil_append]

theorem step_of_ended {s : State} (h : ended s = true) : step s = .next s := by
  unfold ended at h
  unfold step
  cases hp : s.phase <;> simp [hp] at h ⊢

/-- A run that has ended stays as it is for any number of steps (R206). -/
theorem run_of_ended (k : Nat) {s : State} (h : ended s = true) : core.run k s = .next s := by
  induction k with
  | zero => rfl
  | succ k ih => rw [run_next core k s s (step_of_ended h), ih]

/-- A run under way ends in as many steps as it has lines left and one more, and shows what the spec's loop answers on
them: a blank line and an instruction's line keep that answer, a line in error is it, and the commit writes it. -/
theorem run_shows_assembleRest (k : Nat) {s : State} (hinv : RunInv s) (hp : s.phase = .assembling)
    (hk : (restLines s).length + 1 ≤ k) :
    ∃ t, core.run k s = .next t ∧ ended t = true ∧ ShowsResult (outputPath s) s.writeFailure (assembleRest s) t := by
  induction k generalizing s with
  | zero => omega
  | succ k ih =>
    have hseen : Unseen s := runInv_unseen hinv (.inr hp)
    cases hf : fetchLine s with
    | none =>
      refine ⟨_, (run_next core k _ _ (step_of_no_line hp hf)).trans (run_of_ended k (ended_commit _ _)),
        ended_commit _ _, ?_⟩
      rw [assembleRest_of_no_line hf]
      exact showsResult_commit hinv hseen
    | some l =>
      have hstep : step s = stepLine s l := step_of_line hp hf
      have hfewer : (restLines (advanceLine s)).length + 1 ≤ k := by
        rw [restLines_of_line hinv.line hf, List.length_cons] at hk
        omega
      cases hr : readLine pactConfig s.lineNo l with
      | blank =>
        rw [stepLine, hr] at hstep
        rw [run_next core k _ _ hstep, ← assembleRest_advanceLine hinv.line hf hr]
        exact ih (stepKeepsTheRunInvariant _ _ hinv hstep) hp hfewer
      | instr i =>
        rw [stepLine, hr] at hstep
        have hnext := hstep.trans (exec_eq_emit i (advanceLine s))
        rw [run_next core k _ _ hnext, ← assembleRest_emit hinv.line hf hr]
        exact ih (stepKeepsTheRunInvariant _ _ hinv hnext) hp hfewer
      | error e =>
        rw [stepLine, hr] at hstep
        refine ⟨_, (run_next core k _ _ hstep).trans (run_of_ended k rfl), rfl, ?_⟩
        rw [assembleRest, restLines_of_line hinv.line hf, assembleFrom_error hr]
        exact showsResult_abortLine _ _ _ _ hseen

theorem restLines_beginRun (lines : List Line) (s : State) : restLines (beginRun lines s) = lines := rfl

/-- The first step of an invoked run with two arguments and a text to read begins the run on the lines of the text. -/
theorem step_invoke_text (src dst : String) (text : Text) (w : Option IoCause) :
    step (State.invoke [src, dst] (.text text) w) =
      .next (beginRun (splitLines pactConfig text) (State.invoke [src, dst] (.text text) w)) := rfl

/-- Settles O51: the first step begins the run on the lines of the text, and what it shows at its end is what they
assemble to. -/
theorem runIsAssembleThenWrite : Obligations.RunIsAssembleThenWrite := by
  intro src dst text w k hk
  obtain ⟨k, rfl⟩ : ∃ j, k = j + 1 := ⟨k - 1, by omega⟩
  have hstep := step_invoke_text src dst text w
  have hinv := stepKeepsTheRunInvariant _ _ (runInv_invoke _ _ _) hstep
  have hlines :
      (restLines (beginRun (splitLines pactConfig text) (State.invoke [src, dst] (.text text) w))).length + 1 ≤ k := by
    rw [restLines_beginRun]
    omega
  obtain ⟨t, hrun, hended, hshows⟩ := run_shows_assembleRest k hinv rfl hlines
  exact ⟨t, (run_next core k (State.invoke _ _ _) _ hstep).trans hrun, hended, hshows⟩

end Sys2Proof.Machine
end

section
/-! SUPPORT. Words as the encodings write them, and the Immediate category's one instruction (spec 30_encoding.md R71, R80,
40_immediate.md R120). -/

namespace Sys2Proof.Machine

/-! ### Words decode to what they encode (R80) -/

/-- Pseudo-instruction aside, the word of the byte of an instruction whose address fits decodes to the instruction. -/
theorem decodeTableWord_of_encodes {i : Instr} {w : Nat} (hi : i.exact = true) (hne : i ≠ .hlt)
    (hw : (encodeWith pactConfig i).toNat = w) : decodeTableWord 8 w = some i := by
  subst hw
  rw [decodeTableWord, Nat.mod_eq_of_lt (b := 2 ^ 8) (encodeWith pactConfig i).isLt, BitVec.ofNat_toNat,
    BitVec.setWidth_eq, decode, decodeByte_of_exact pactConfig_uniqueCodes hi hne]

/-- Settles O13: each word is the encoding of its instruction at the default codes, and so decodes to it. -/
theorem sampleWordsDecode : Obligations.SampleWordsDecode := by
  refine ⟨?_, ?_, ?_, ?_, ?_, ?_, ?_, ?_⟩
  all_goals exact decodeTableWord_of_encodes rfl nofun (by decide)

/-! ### adi (R120) -/

/-- Settles O16: `adi` emits its encoding as every instruction does, and the encode function gives that byte as a number. -/
theorem adiCompletes : Obligations.AdiCompletes := by
  intro v s
  obtain ⟨t, hexec, hemitted⟩ := execEmitsTheEncoding (.adi v) s
  exact ⟨t, _, hexec, hemitted, encodeFunctionByShape pactConfig (.adi v)⟩

end Sys2Proof.Machine
end

section
/-! SUPPORT. The RegisterPair category's two instructions (spec 41_register_pair.md R130, R131). -/

namespace Sys2Proof.Machine

/-- Settles O17: `add` and `sub` emit their encoding as every instruction does, and the encode function gives that byte as
a number. -/
theorem addSubComplete : Obligations.AddSubComplete := by
  intro f s d st row hrow
  obtain ⟨t, hexec, hemitted⟩ := execEmitsTheEncoding row.2 st
  obtain rfl | rfl : row = (.add, .add f s d) ∨ row = (.sub, .sub f s d) := by simpa using hrow
  · refine ⟨t, _, hexec, hemitted, ?_⟩
    simpa only [Nat.add_assoc, Instr.opcode] using encodeFunctionByShape pactConfig (.add f s d)
  · refine ⟨t, _, hexec, hemitted, ?_⟩
    simpa only [Nat.add_assoc, Instr.opcode] using encodeFunctionByShape pactConfig (.sub f s d)

end Sys2Proof.Machine
end

section
/-! SUPPORT. The MemoryAddress category's three instructions (spec 42_memory_address.md R140 to R143). -/

namespace Sys2Proof.Machine

/-- Settles O18: each jump emits its encoding as every instruction does, and the encode function gives that byte as a
number, its low five bits by R65 where the address fits and by the open parameter for address 16. -/
theorem jumpsComplete : Obligations.JumpsComplete := by
  intro f a s row hrow
  obtain ⟨t, hexec, hemitted⟩ := execEmitsTheEncoding row.2 s
  have hbyte := encodeFunctionByShape pactConfig row.2
  obtain rfl | rfl | rfl : row = (.jne, .jne f a) ∨ row = (.jg, .jg f a) ∨ row = (.jl, .jl f a) := by simpa using hrow
  all_goals exact ⟨t, _, hexec, hemitted, hbyte⟩

end Sys2Proof.Machine
end

section
/-! SUPPORT. The IoOperation category's two instructions and the pseudo-instruction (spec 43_io_operation.md R155 to R157). -/

namespace Sys2Proof.Machine

/-- Settles O19: `ioi` and `ior` emit their encoding as every instruction does, and the encode function gives that byte as
a number. -/
theorem ioOperationsComplete : Obligations.IoOperationsComplete := by
  intro v f s row hrow
  obtain ⟨t, hexec, hemitted⟩ := execEmitsTheEncoding row.2 s
  have hbyte := encodeFunctionByShape pactConfig row.2
  obtain rfl | rfl : row = (.ioi, .ioi v f) ∨ row = (.ior, .ior v f) := by simpa using hrow
  all_goals exact ⟨t, _, hexec, hemitted, hbyte.trans (Nat.add_assoc _ _ _).symm⟩

/-- An instruction and its expansion run alike, since the program slot holds the expansion (R92, R157). -/
theorem exec_expand (i : Instr) (s : State) : exec i.expand s = exec i s := by
  rw [exec_eq_emit, exec_eq_emit, Instr.expand_of_ne_hlt i.expand_ne_hlt]

/-- Settles O20: `hlt` runs as its expansion `ioi cpu 0`, and that emits its encoding as every `ioi` does. -/
theorem hltIsIoiCpuZero : Obligations.HltIsIoiCpuZero := by
  intro s
  obtain ⟨t, q, hexec, hemitted, hbyte⟩ := ioOperationsComplete .cpu 0 s (.ioi, .ioi .cpu 0) (by simp)
  have hsame : exec .hlt s = exec (.ioi .cpu 0) s := (exec_expand .hlt s).symm
  exact ⟨t, q, hsame.trans hexec, hexec, hemitted, hbyte⟩

end Sys2Proof.Machine
end

section
/-! SUPPORT. The step, branch by branch, as an equation for the next state: the start of a run, a line, the commit (spec
60_exceptions.md R179 to R188, 20_memory.md R49, R50). -/

namespace Sys2Proof.Machine

/-- Settles O52: every branch of the step answers a next state, an instruction's line by the emission of its byte. -/
theorem everyStepAnswersANextState : Obligations.EveryStepAnswersANextState := by
  intro s
  obtain ⟨_, hs⟩ | ⟨_, _, hs⟩ | ⟨_, _, _, ⟨_, hs⟩ | ⟨i, _, hs⟩ | ⟨_, _, hs⟩⟩ | ⟨_, hs⟩ := step_cases s
  · exact ⟨_, hs⟩
  · exact ⟨_, hs⟩
  · exact ⟨_, hs⟩
  · exact ⟨_, hs.trans (exec_eq_emit i _)⟩
  · exact ⟨_, hs⟩
  · exact ⟨_, hs⟩

/-- Settles O14: every meaning emits a byte, and emission changes none of these records. -/
theorem encodingRaisesNothing : Obligations.EncodingRaisesNothing := by
  intro i s
  obtain ⟨_, hexec⟩ := exec_emits i s
  exact ⟨_, hexec, emit_error _ _ _, emit_stderr _ _ _, emit_exitStatus _ _ _, emit_phase _ _ _⟩

/-- Settles O30: the step leaves an ended run as it is, and so do any number of steps. -/
theorem endedRunIsFinal : Obligations.EndedRunIsFinal :=
  fun _ k h => run_of_ended k h

/-! ### The start of a run (R186, R188) -/

theorem step_of_start {s : State} (hp : s.phase = .start) : step s = .next (startRun pactConfig s) := by
  simp only [step, hp]

theorem startRun_of_wrong_count (c : Config) {s : State} (h : s.args.length ≠ 2) : startRun c s = showUsage c s := by
  obtain ⟨_, hs⟩ | ⟨hcount, _⟩ | ⟨hcount, _⟩ := startRun_cases c s
  · exact hs
  · exact absurd hcount h
  · exact absurd hcount h

theorem startRun_of_failed_read (c : Config) {s : State} {cause : IoCause} (h : s.args.length = 2)
    (hread : s.inputFile = .failed cause) : startRun c s = abortRead c cause s := by
  obtain ⟨_, _, hargs⟩ := List.length_eq_two.mp h
  simp only [startRun, hargs, hread]

theorem startRun_of_text (c : Config) {s : State} {text : Text} (h : s.args.length = 2)
    (hread : s.inputFile = .text text) : startRun c s = beginRun (splitLines c text) s := by
  obtain ⟨_, _, hargs⟩ := List.length_eq_two.mp h
  simp only [startRun, hargs, hread]

/-- Settles O28: the start shows the usage message, which changes no record of what is read, encoded or written. -/
theorem wrongArgumentCountShowsUsage : Obligations.WrongArgumentCountShowsUsage := by
  intro s hp hcount
  have hstep : step s = .next (showUsage pactConfig s) := by
    rw [step_of_start hp, startRun_of_wrong_count _ hcount]
  exact ⟨_, _, _, hstep, showUsage_phase _ _, showUsage_stderr _ _, showUsage_exitStatus _ _, showUsage_stdout _ _,
    showUsage_source _ _, showUsage_program _ _, showUsage_slot _ _, showUsage_out _ _, showUsage_image _ _,
    showUsage_error _ _, showUsage_lineNo _ _⟩

/-! ### A line (R183) -/

theorem step_of_blank_line {s : State} {l : Line} (hp : s.phase = .assembling) (hf : fetchLine s = some l)
    (hr : readLine pactConfig s.lineNo l = .blank) : step s = .next (advanceLine s) := by
  rw [step_of_line hp hf, stepLine, hr]

theorem step_of_instr_line {s : State} {l : Line} {i : Instr} (hp : s.phase = .assembling) (hf : fetchLine s = some l)
    (hr : readLine pactConfig s.lineNo l = .instr i) :
    step s = .next (emit (encodeWith pactConfig i.expand) i.expand (advanceLine s)) :=
  (stepRunsTheInstructionOfTheLine s l i hp hf hr).trans (exec_eq_emit i _)

theorem step_of_error_line {s : State} {l : Line} {e : AsmError} (hp : s.phase = .assembling)
    (hf : fetchLine s = some l) (hr : readLine pactConfig s.lineNo l = .error e) :
    step s = .next (abortLine pactConfig e s) := by
  rw [step_of_line hp hf, stepLine, hr]

/-- Settles O24: the step on a line in error is the shared way a run ends in an error. -/
theorem lineErrorEndsTheRun : Obligations.LineErrorEndsTheRun := by
  intro s l e hp hf hr
  exact ⟨_, _, step_of_error_line hp hf hr, abort_phase _ _ _, abort_image _ _ _, abort_error _ _ _,
    abort_exitStatus _ _ _, abort_out _ _ _, abort_program _ _ _, abort_slot _ _ _, abort_source _ _ _,
    abort_stdout _ _ _, abort_stderr _ _ _⟩

/-! ### The commit, and the errors of the file system (R179, R180, R187) -/

theorem commit_of_write_fails (c : Config) {s : State} {cause : IoCause} (h : s.writeFailure = some cause) :
    commit c s = abortWrite c cause s := by
  rw [commit, h]

theorem outputPath_of_args {s : State} {src dst : String} (h : s.args = [src, dst]) : outputPath s = dst := by
  rw [outputPath, h, List.getD_cons_succ, List.getD_cons_zero]

theorem abortWrite_stderr (c : Config) (cause : IoCause) (s : State) :
    (abortWrite c cause s).stderr = s.stderr ++
      ["failed to write to file '" ++ outputPath s ++ "': " ++ c.errorMessage s.draws (.ioError cause)] :=
  abort_stderr _ _ _

/-- Settles O25: the start meets the read's error and the commit the write's, and each ends the run in the shared way. -/
theorem fileErrorsEndTheRun : Obligations.FileErrorsEndTheRun := by
  intro s src dst cause hargs
  constructor
  · intro hp hread
    have hstep : step s = .next (abortRead pactConfig cause s) := by
      rw [step_of_start hp, startRun_of_failed_read _ (by simp [hargs]) hread]
    exact ⟨_, _, hstep, abort_phase _ _ _, abort_image _ _ _, abort_error _ _ _, abort_exitStatus _ _ _,
      abort_out _ _ _, abort_program _ _ _, abort_stdout _ _ _, abort_stderr _ _ _⟩
  · intro hp hf hw
    have hstep : step s = .next (abortWrite pactConfig cause s) := by
      rw [step_of_no_line hp hf, commit_of_write_fails _ hw]
    have hstderr := abortWrite_stderr pactConfig cause s
    rw [outputPath_of_args hargs] at hstderr
    exact ⟨_, _, hstep, abort_phase _ _ _, abort_image _ _ _, abort_error _ _ _, abort_exitStatus _ _ _,
      abort_out _ _ _, abort_program _ _ _, abort_stdout _ _ _, hstderr⟩

/-- Settles O27: the commit shows the header and the program's bytes as the image, and the message counts just these. -/
theorem successReportsTheImageLength : Obligations.SuccessReportsTheImageLength := by
  intro s src dst hinv hargs hp hf hw
  have hshows := showsResult_commit hinv (runInv_unseen hinv (.inr hp))
  rw [hw, outputPath_of_args hargs] at hshows
  obtain ⟨_, himage, hexit, _, hstdout⟩ := hshows
  refine ⟨_, _, step_of_no_line hp hf, himage, hexit, ?_, ?_⟩
  · rw [commit_of_write_succeeds _ hw, succeed_phase]
  · rw [hstdout, Memory.length_ofBytes, List.length_append]

end Sys2Proof.Machine
end

section
/-! SUPPORT. The host's inputs under a step (spec 60_exceptions.md R181, R186): other inputs in the fields that an operation
does not look at go through it unread. -/

namespace Sys2Proof.Machine

/-- The state with other host inputs. -/
def State.withInputs (s : State) (args : List String) (f : FileRead) (w : Option IoCause) : State :=
  { s with args := args, inputFile := f, writeFailure := w }

theorem State.withInputs_self (s : State) : s.withInputs s.args s.inputFile s.writeFailure = s := rfl

/-- The start reads the arguments and what the initial read gives, not whether the write will fail. -/
theorem startRun_withInputs (c : Config) (s : State) (w : Option IoCause) :
    startRun c (s.withInputs s.args s.inputFile w) = (startRun c s).withInputs s.args s.inputFile w := by
  obtain ⟨hcount, hs⟩ | ⟨hcount, _, hread, hs⟩ | ⟨hcount, _, hread, hs⟩ := startRun_cases c s <;> rw [hs]
  · exact startRun_of_wrong_count c hcount
  · exact startRun_of_failed_read c hcount hread
  · exact startRun_of_text c hcount hread

/-- The commit reads the arguments and whether the write fails, not what the initial read gave. -/
theorem commit_withInputs (c : Config) (s : State) (f : FileRead) :
    commit c (s.withInputs s.args f s.writeFailure) = (commit c s).withInputs s.args f s.writeFailure := by
  obtain ⟨_, hw, hc⟩ | ⟨hw, hc⟩ := commit_cases c s <;> rw [hc]
  · exact commit_of_write_fails c hw
  · exact commit_of_write_succeeds c hw

/-- A step does the same under other inputs and keeps those, where the start is left its arguments and its read, and the
commit its arguments and the outcome of its write. -/
theorem step_withInputs {s t : State} (h : step s = .next t) {args : List String} {f : FileRead} {w : Option IoCause}
    (hstart : s.phase = .start → args = s.args ∧ f = s.inputFile)
    (hcommit : s.phase = .assembling → fetchLine s = none → args = s.args ∧ w = s.writeFailure) :
    step (s.withInputs args f w) = .next (t.withInputs args f w) := by
  obtain ⟨hp, rfl⟩ | ⟨hp, hf, rfl⟩ | ⟨hp, l, hf, ⟨hr, rfl⟩ | ⟨i, hr, rfl⟩ | ⟨e, hr, rfl⟩⟩ | ⟨he, rfl⟩ :=
    step_next_cases h
  · obtain ⟨rfl, rfl⟩ := hstart hp
    rw [← startRun_withInputs]
    exact step_of_start hp
  · obtain ⟨rfl, rfl⟩ := hcommit hp hf
    rw [← commit_withInputs]
    exact step_of_no_line hp hf
  · exact step_of_blank_line (s := s.withInputs args f w) hp hf hr
  · exact step_of_instr_line (s := s.withInputs args f w) hp hf hr
  · exact step_of_error_line (s := s.withInputs args f w) hp hf hr
  · exact step_of_ended he

/-- No step changes an input: the step under the inputs the state has is the step itself. -/
theorem step_keeps_inputs {s t : State} (h : step s = .next t) :
    t.args = s.args ∧ t.inputFile = s.inputFile ∧ t.writeFailure = s.writeFailure := by
  have hself := step_withInputs h (fun _ => ⟨rfl, rfl⟩) (fun _ _ => ⟨rfl, rfl⟩)
  rw [State.withInputs_self] at hself
  have same : t = t.withInputs s.args s.inputFile s.writeFailure := Host.Outcome.next.inj (h.symm.trans hself)
  exact ⟨(congrArg State.args same :), (congrArg State.inputFile same :), (congrArg State.writeFailure same :)⟩

/-- Settles O53: each clause is a step under other inputs, those it does not name being the state's own. -/
theorem stepKeepsTheHostInputs : Obligations.StepKeepsTheHostInputs := by
  intro s t h
  obtain ⟨hargs, hfile, hwrite⟩ := step_keeps_inputs h
  have noCommit (hline : s.phase ≠ .assembling ∨ fetchLine s ≠ none) (hp : s.phase = .assembling) :
      fetchLine s ≠ none := hline.resolve_left (not_not_intro hp)
  refine ⟨⟨hargs, hfile, hwrite⟩, fun hp f => ?_, fun hline w => ?_, fun hp hline args f w => ?_⟩
  · have hstep := step_withInputs h (f := f) (fun hs => absurd hs hp) (fun _ _ => ⟨rfl, rfl⟩)
    simpa only [State.withInputs, hargs, hwrite] using hstep
  · have hstep := step_withInputs h (w := w) (fun _ => ⟨rfl, rfl⟩) (fun hs hf => absurd hf (noCommit hline hs))
    simpa only [State.withInputs, hargs, hfile] using hstep
  · exact step_withInputs h (fun hs => absurd hs hp) (fun hs hf => absurd hf (noCommit hline hs))

end Sys2Proof.Machine
end

section
/-! SUPPORT. The first line in error decides what the front end answers (spec 60_exceptions.md R182). -/

namespace Sys2Proof.Machine

/-- The loop goes through lines of which none is in error by appending their bytes, whatever lines follow. -/
theorem assembleFrom_append {c : Config} {n : Nat} {before : List Line} (h : NoLineFails c n before) (out : List Byte)
    (rest : List Line) :
    assembleFrom c n out (before ++ rest) =
      assembleFrom c (n + before.length) (out ++ lineBytes c n before) rest := by
  induction before generalizing n out with
  | nil => simp [lineBytes]
  | cons l ls ih =>
    obtain ⟨hline, hrest⟩ := (noLineFails_cons c n l ls).mp h
    have number : n + 1 + ls.length = n + (l :: ls).length := by
      rw [List.length_cons]
      omega
    rw [lineBytes_cons, List.cons_append, ← number]
    cases hr : readLine c n l with
    | blank => simp [assembleFrom_blank hr, ih hrest, lineByte]
    | instr i => simp [assembleFrom_instr hr, ih hrest, lineByte]
    | error e => exact absurd hr (hline e)

/-- Settles O46: the loop reaches the line with the bytes of the lines before it, and stops there. -/
theorem firstErrorWins : Obligations.FirstErrorWins := by
  intro c before after l e hbefore hl
  rw [assemble, assembleFrom_append hbefore, assembleFrom_error]
  rwa [Nat.add_comm]

end Sys2Proof.Machine
end

section
/-! SUPPORT. No endless run (spec 70_reset_and_hazards.md R205, R206): each line that is taken leaves one line fewer to
take, and nothing else keeps a run going. -/

namespace Sys2Proof.Machine

/-- The run that goes on from this state has ended after some number of steps. -/
def Ends (s : State) : Prop := ∃ (k : Nat) (t : State), core.run k s = .next t ∧ ended t = true

theorem ends_of_ended {s : State} (h : ended s = true) : Ends s := ⟨0, s, rfl, h⟩

theorem ends_of_step {s t : State} (hstep : step s = .next t) (h : Ends t) : Ends s := by
  obtain ⟨k, u, hrun, hu⟩ := h
  exact ⟨k + 1, u, (run_next core k s t hstep).trans hrun, hu⟩

/-- A bound on the lines still to be taken that goes down at every line from every state: from line counter 0 line 1 is
taken twice, and `restLines` is not shorter after the first time. -/
def linesLeft (s : State) : Nat := s.source.length + 1 - s.lineNo

theorem linesLeft_emit (q : Byte) (i : Instr) (s : State) : linesLeft (emit q i s) = linesLeft s := rfl

theorem linesLeft_advanceLine {s : State} {l : Line} (h : fetchLine s = some l) :
    linesLeft s = linesLeft (advanceLine s) + 1 := by
  obtain ⟨hlt, _⟩ := List.getElem?_eq_some_iff.mp h
  simp only [linesLeft, advanceLine_source, advanceLine_lineNo]
  omega

/-- A run under way ends at its commit or at a line in error, one of which it reaches by taking lines. -/
theorem ends_of_assembling {s : State} (hp : s.phase = .assembling) : Ends s := by
  induction hn : linesLeft s using Nat.strong_induction_on generalizing s with
  | _ n ih =>
    subst hn
    cases hf : fetchLine s with
    | none => exact ends_of_step (step_of_no_line hp hf) (ends_of_ended (ended_commit _ _))
    | some l =>
      have hfewer : linesLeft (advanceLine s) < linesLeft s := by
        rw [linesLeft_advanceLine hf]
        exact Nat.lt_succ_self _
      cases hr : readLine pactConfig s.lineNo l with
      | blank => exact ends_of_step (step_of_blank_line hp hf hr) (ih _ hfewer hp rfl)
      | instr i => exact ends_of_step (step_of_instr_line hp hf hr) (ih _ hfewer hp (linesLeft_emit _ _ _))
      | error e => exact ends_of_step (step_of_error_line hp hf hr) (ends_of_ended rfl)

/-- The start ends the run at once or begins it. -/
theorem ends_of_start {s : State} (hp : s.phase = .start) : Ends s := by
  refine ends_of_step (step_of_start hp) ?_
  obtain ⟨_, hs⟩ | ⟨_, _, _, hs⟩ | ⟨_, _, _, hs⟩ := startRun_cases pactConfig s <;> rw [hs]
  · exact ends_of_ended rfl
  · exact ends_of_ended rfl
  · exact ends_of_assembling (beginRun_phase _ _)

/-- Settles O56, by the phase the state is in. -/
theorem everyRunEnds : Obligations.EveryRunEnds := by
  intro s
  cases hp : s.phase with
  | start => exact ends_of_start hp
  | assembling => exact ends_of_assembling hp
  | succeeded => exact ends_of_ended (by rw [ended, hp])
  | failed => exact ends_of_ended (by rw [ended, hp])
  | usageShown => exact ends_of_ended (by rw [ended, hp])

end Sys2Proof.Machine
end

section
/-! SUPPORT. What a run builds does not depend on what it has printed (spec 70_reset_and_hazards.md R201): two runs that
agree on everything else go on agreeing. -/

namespace Sys2Proof.Machine

/-- The state without the fields no step looks at but to add to them or to choose a free text or status: the streams, the
exit status and the draws. -/
def State.unprinted (s : State) : State := { s with stdout := [], stderr := [], exitStatus := none, draws := 0 }

theorem startRun_unprinted (c : Config) (s : State) :
    (startRun c s.unprinted).unprinted = (startRun c s).unprinted := by
  obtain ⟨hcount, hs⟩ | ⟨hcount, _, hread, hs⟩ | ⟨hcount, _, hread, hs⟩ := startRun_cases c s <;> rw [hs]
  · exact (congrArg State.unprinted (startRun_of_wrong_count c (s := s.unprinted) hcount) :)
  · exact (congrArg State.unprinted (startRun_of_failed_read c (s := s.unprinted) hcount hread) :)
  · exact (congrArg State.unprinted (startRun_of_text c (s := s.unprinted) hcount hread) :)

theorem commit_unprinted (c : Config) (s : State) :
    (commit c s.unprinted).unprinted = (commit c s).unprinted := by
  obtain ⟨_, hw, hc⟩ | ⟨hw, hc⟩ := commit_cases c s <;> rw [hc]
  · exact (congrArg State.unprinted (commit_of_write_fails c (s := s.unprinted) hw) :)
  · exact (congrArg State.unprinted (commit_of_write_succeeds c (s := s.unprinted) hw) :)

/-- From the state without these fields a step does the same to all others. -/
theorem step_unprinted {s t : State} (h : step s = .next t) :
    ∃ u, step s.unprinted = .next u ∧ u.unprinted = t.unprinted := by
  obtain ⟨hp, rfl⟩ | ⟨hp, hf, rfl⟩ | ⟨hp, l, hf, ⟨hr, rfl⟩ | ⟨i, hr, rfl⟩ | ⟨e, hr, rfl⟩⟩ | ⟨he, rfl⟩ :=
    step_next_cases h
  · exact ⟨_, step_of_start (s := s.unprinted) hp, startRun_unprinted _ _⟩
  · exact ⟨_, step_of_no_line (s := s.unprinted) hp hf, commit_unprinted _ _⟩
  · exact ⟨_, step_of_blank_line (s := s.unprinted) hp hf hr, rfl⟩
  · exact ⟨_, step_of_instr_line (s := s.unprinted) hp hf hr, rfl⟩
  · exact ⟨_, step_of_error_line (s := s.unprinted) hp hf hr, rfl⟩
  · exact ⟨_, step_of_ended he, rfl⟩

theorem step_keeps_unprinted_eq {s s' t t' : State} (h : s.unprinted = s'.unprinted) (hst : step s = .next t)
    (hst' : step s' = .next t') : t.unprinted = t'.unprinted := by
  obtain ⟨u, hu, hut⟩ := step_unprinted hst
  obtain ⟨u', hu', hut'⟩ := step_unprinted hst'
  obtain rfl : u = u' := Host.Outcome.next.inj (hu.symm.trans (h ▸ hu'))
  exact hut.symm.trans hut'

/-- A run of at least one step, at its first step, for any machine behind the host's interface. -/
theorem exists_step_of_run {M : Host.Core} {k : Nat} {s t : M.State} (h : M.run (k + 1) s = .next t) :
    ∃ u, M.step s = .next u ∧ M.run k u = .next t := by
  cases hstep : M.step s with
  | next u => exact ⟨u, rfl, by rwa [run_next M k s u hstep] at h⟩
  | fault r => simp [Host.Core.run, hstep] at h
  | refused r => simp [Host.Core.run, hstep] at h

theorem run_keeps_unprinted_eq (k : Nat) {s s' t t' : State} (h : s.unprinted = s'.unprinted)
    (hrun : core.run k s = .next t) (hrun' : core.run k s' = .next t') : t.unprinted = t'.unprinted := by
  induction k generalizing s s' with
  | zero =>
    obtain rfl : s = t := Host.Outcome.next.inj hrun
    obtain rfl : s' = t' := Host.Outcome.next.inj hrun'
    exact h
  | succ k ih =>
    obtain ⟨u, hstep, hrest⟩ := exists_step_of_run hrun
    obtain ⟨u', hstep', hrest'⟩ := exists_step_of_run hrun'
    exact ih (step_keeps_unprinted_eq h hstep hstep') hrest hrest'

/-- A run that begins keeps nothing of the state before it but the host's inputs and what was printed (R31, R35, R201). -/
theorem beginRun_unprinted_eq (lines : List Line) {s s' : State} (hargs : s'.args = s.args)
    (hfile : s'.inputFile = s.inputFile) (hwrite : s'.writeFailure = s.writeFailure) :
    (beginRun lines s').unprinted = (beginRun lines s).unprinted := by
  simp only [State.unprinted, beginRun, dropTransient, hargs, hfile, hwrite]

theorem step_of_start_text {s : State} {src dst : String} {text : Text} (hp : s.phase = .start)
    (hargs : s.args = [src, dst]) (hread : s.inputFile = .text text) :
    step s = .next (beginRun (splitLines pactConfig text) s) := by
  rw [step_of_start hp, startRun_of_text _ (by simp [hargs]) hread]

/-- Settles O29: the start sets every field the statement names, and two such starts agree on all a run builds from. -/
theorem runStartsFromNothing : Obligations.RunStartsFromNothing := by
  intro s src dst text hp hargs hread
  have hstep := step_of_start_text hp hargs hread
  refine ⟨⟨_, hstep, beginRun_phase _ _, beginRun_lineNo _ _, beginRun_program _ _, beginRun_slot _ _, beginRun_out _ _,
    beginRun_image _ _, beginRun_error _ _, beginRun_source _ _⟩, ?_⟩
  intro s' hp' hargs' hread' hwrite' k t t' hrun hrun'
  have hstep' := step_of_start_text hp' (hargs'.trans hargs) (hread'.trans hread)
  rw [run_next core k s _ hstep] at hrun
  rw [run_next core k s' _ hstep'] at hrun'
  have agree := run_keeps_unprinted_eq k (beginRun_unprinted_eq _ hargs' hread' hwrite') hrun' hrun
  exact ⟨(congrArg State.phase agree :), (congrArg State.image agree :), (congrArg State.error agree :),
    (congrArg State.out agree :), (congrArg State.program agree :)⟩

end Sys2Proof.Machine
end
